-- ==== Sys2Proof/Word.lean ====
section
/-! DEFINITION. The word types of the RC4 core: bytes and 32-bit command and register words (R6, R7, R10). -/

namespace Sys2Proof

/-- An 8-bit unsigned value; `+` wraps modulo 256 (R8, R11). -/
abbrev Byte := BitVec 8

/-- A 32-bit value: a command word (R60) or a window register (R45). -/
abbrev Word := BitVec 32

/-- The cursor that CREAD copies: `I` (the source's `cursor_a`) or `J` (`cursor_b`) (R63, R126). -/
inductive CursorSel where
  | i
  | j
  deriving DecidableEq, Repr

end Sys2Proof
end

