-- ==== Sys2Proof/Config.lean ====
section
/-! DEFINITION. The parameters the spec leaves open (R9): RC4_BASE, T_LAT and N_INST. None has a value here, so no
proof can rest on one. -/

namespace Sys2Proof

/-- How many 16-byte slots lie unused below the window of core `k` and above the window before it; the platform sets it (R9, D3). -/
opaque Config.windowGap : Nat → Nat

/-- RC4_BASE of core `k`, divided by 16. Each core has its own window (R155). A core has no identifier beyond its base address,
and the model numbers the cores by ascending base, so that no two windows meet by construction (log 11). -/
def Config.windowIndex : Nat → Nat
  | 0 => Config.windowGap 0
  | k + 1 => Config.windowIndex k + 1 + Config.windowGap (k + 1)

/-- RC4_BASE of core `k`, the host byte address of its register window: a multiple of 16 by construction (R9, R45, R155). -/
def Config.rc4Base (k : Nat) : Nat := 16 * Config.windowIndex k

/-- T_LAT of a command with this opcode, in an unnamed unit, less one; the implementation sets it (R9, D20). -/
opaque Config.latencyLessOne : BitVec 4 → Nat

/-- T_LAT(op): positive and finite (R9). The model has no time and no rule depends on it (R170). -/
def Config.latency (op : BitVec 4) : Nat := Config.latencyLessOne op + 1

/-- N_INST less one; the platform sets it (R9, D22). -/
opaque Config.extraInstances : Nat

/-- N_INST, the number of RC4 core instances on the platform: at least 1 (R9, R155). -/
def Config.instances : Nat := Config.extraInstances + 1

end Sys2Proof
end

