-- ==== Sys2Proof/Syntax.lean ====
section
/-! DEFINITION. The nine commands of the block, one constructor per row of the opcode map (R67). -/

namespace Sys2Proof

/-- A command with its operands taken from the fields A and D (R63, R64, R65). -/
inductive Instr where
  /-- NOP (R122). -/
  | nop
  /-- KEYWR: key byte position `idx`, key byte `byte` (R80). -/
  | keywr (idx byte : Byte)
  /-- KEYLEN: the key length `len`, legal 0..256 (R82). -/
  | keylen (len : BitVec 9)
  /-- KSA (R85). -/
  | ksa
  /-- XFORM: one byte of plaintext or ciphertext (R100). -/
  | xform (byte : Byte)
  /-- SREAD: permutation index `idx` (R124). -/
  | sread (idx : Byte)
  /-- CREAD: the cursor to copy (R126). -/
  | cread (sel : CursorSel)
  /-- ZERO (R120). -/
  | zero
  /-- CLRERR (R128). -/
  | clrerr
  deriving DecidableEq, Repr

end Sys2Proof
end

