-- ==== Sys2Proof/WellFormed.lean ====
section
/-! DEFINITION. Which commands some word encodes. Every operand but KEYLEN's fills its type: an index or data byte is any 8-bit
value and a cursor select any of two (R63, R64); a key length above 256 has no legal word (R69, R82). -/

namespace Sys2Proof

/-- The operand rules of R63 that the operand's type does not already say. -/
def Instr.wf : Instr → Bool
  | .keylen len => decide (len.toNat ≤ 256)
  | .nop | .keywr _ _ | .ksa | .xform _ | .sread _ | .cread _ | .zero | .clrerr => true

end Sys2Proof
end

