-- ==== Sys2Proof/Decode.lean ====
section
/-! DEFINITION. Decoding a command word (R60 to R72), the encoder, the opcode map as data, and the byte lanes of a 32-bit
register (R51). -/

namespace Sys2Proof

/-- OP, bits 31:28 (R60, R61). -/
def opField (w : Word) : BitVec 4 := w.extractLsb' 28 4

/-- RSV, bits 27:17, 0 in every legal word (R60, R62). -/
def rsvField (w : Word) : BitVec 11 := w.extractLsb' 17 11

/-- A, bits 16:8 (R60, R63). -/
def aField (w : Word) : BitVec 9 := w.extractLsb' 8 9

/-- D, bits 7:0 (R60, R64). -/
def dField (w : Word) : Byte := w.extractLsb' 0 8

/-- A[7:0], the byte index of KEYWR and SREAD (R63, R65). -/
def indexOf (a : BitVec 9) : Byte := a.extractLsb' 0 8

/-- A[0], the cursor select of CREAD: 0 is `I`, 1 is `J` (R63, R126). -/
def cursorOf (a : BitVec 9) : CursorSel := if a[0] then .j else .i

/-- Why a word is ILLEGAL (R68, R69). The block does not record which reason it was (R141). -/
inductive DecodeError where
  /-- OP is 0x9 to 0xF (R68). -/
  | reservedOpcode
  /-- RSV is not 0 (R62). -/
  | reservedField
  /-- A field the command does not use is not 0 (R69). -/
  | unusedField
  /-- A is outside the command's legal values (R63, R69). -/
  | operandRange
  deriving DecidableEq, Repr

/-- The decoder of R66: every word gives one command or is ILLEGAL. -/
def decode (w : Word) : Except DecodeError Instr :=
  if rsvField w ≠ 0#11 then .error .reservedField
  else match opField w with
    | 0x0#4 => if aField w = 0#9 ∧ dField w = 0#8 then .ok .nop else .error .unusedField
    | 0x1#4 => if (aField w)[8] = false then .ok (.keywr (indexOf (aField w)) (dField w)) else .error .operandRange
    | 0x2#4 =>
      if dField w ≠ 0#8 then .error .unusedField
      else if (aField w).toNat ≤ 256 then .ok (.keylen (aField w)) else .error .operandRange
    | 0x3#4 => if aField w = 0#9 ∧ dField w = 0#8 then .ok .ksa else .error .unusedField
    | 0x4#4 => if aField w = 0#9 then .ok (.xform (dField w)) else .error .unusedField
    | 0x5#4 =>
      if dField w ≠ 0#8 then .error .unusedField
      else if (aField w)[8] = false then .ok (.sread (indexOf (aField w))) else .error .operandRange
    | 0x6#4 =>
      if dField w ≠ 0#8 then .error .unusedField
      else if (aField w).toNat ≤ 1 then .ok (.cread (cursorOf (aField w))) else .error .operandRange
    | 0x7#4 => if aField w = 0#9 ∧ dField w = 0#8 then .ok .zero else .error .unusedField
    | 0x8#4 => if aField w = 0#9 ∧ dField w = 0#8 then .ok .clrerr else .error .unusedField
    | _ => .error .reservedOpcode

/-- A word of format C with RSV = 0 (R60), its fields shifted into place as R73 writes it. -/
def assemble (op : BitVec 4) (a : BitVec 9) (d : Byte) : Word :=
  op.setWidth 32 <<< 28 ||| a.setWidth 32 <<< 8 ||| d.setWidth 32

/-- A byte index as the 9-bit field A, with A[8] = 0 (R63). -/
def indexField (idx : Byte) : BitVec 9 := idx.setWidth 9

/-- A cursor select as the field A (R63, R73). -/
def cursorField : CursorSel → BitVec 9
  | .i => 0#9
  | .j => 1#9

/-- The word of a command, by the syntax table of R73 and the bit patterns of R67. -/
def encode : Instr → Word
  | .nop => assemble 0x0#4 0#9 0#8
  | .keywr idx byte => assemble 0x1#4 (indexField idx) byte
  | .keylen len => assemble 0x2#4 len 0#8
  | .ksa => assemble 0x3#4 0#9 0#8
  | .xform byte => assemble 0x4#4 0#9 byte
  | .sread idx => assemble 0x5#4 (indexField idx) 0#8
  | .cread sel => assemble 0x6#4 (cursorField sel) 0#8
  | .zero => assemble 0x7#4 0#9 0#8
  | .clrerr => assemble 0x8#4 0#9 0#8

/-- One row of the opcode map (R67). `aMax` is the row's extra condition as the greatest legal value of A (511: no condition). -/
structure OpcodeRow where
  mnemonic : String
  pattern : Word
  mask : Word
  aMax : Nat
  deriving DecidableEq, Repr

/-- "A word `w` selects a row when `(w & mask) == match` and the extra condition holds" (R67). -/
def rowSelects (r : OpcodeRow) (w : Word) : Bool :=
  decide (w &&& r.mask = r.pattern) && decide ((aField w).toNat ≤ r.aMax)

/-- The opcode map, row for row (R67, opcode_table.json). The decoder does not read it; claims compare the two. -/
def opcodeMap : List OpcodeRow :=
  [ ⟨"NOP", 0x00000000, 0xFFFFFFFF, 511⟩,
    ⟨"KEYWR", 0x10000000, 0xFFFF0000, 511⟩,
    ⟨"KEYLEN", 0x20000000, 0xFFFE00FF, 256⟩,
    ⟨"KSA", 0x30000000, 0xFFFFFFFF, 511⟩,
    ⟨"XFORM", 0x40000000, 0xFFFFFF00, 511⟩,
    ⟨"SREAD", 0x50000000, 0xFFFF00FF, 511⟩,
    ⟨"CREAD", 0x60000000, 0xFFFFFEFF, 511⟩,
    ⟨"ZERO", 0x70000000, 0xFFFFFFFF, 511⟩,
    ⟨"CLRERR", 0x80000000, 0xFFFFFFFF, 511⟩ ]

/-- A command's mnemonic in the opcode map (R67). -/
def mnemonicOf : Instr → String
  | .nop => "NOP"
  | .keywr _ _ => "KEYWR"
  | .keylen _ => "KEYLEN"
  | .ksa => "KSA"
  | .xform _ => "XFORM"
  | .sread _ => "SREAD"
  | .cread _ => "CREAD"
  | .zero => "ZERO"
  | .clrerr => "CLRERR"

/-- The byte of a 32-bit register at address `RC4_BASE + offset + n`: little-endian lanes (R51). -/
def laneByte (w : Word) (n : Fin 4) : Byte := w.extractLsb' (8 * n.val) 8

/-- The 32-bit value whose bytes stand at `+0`, `+1`, `+2` and `+3` of a register (R51). -/
def wordOfLanes (b0 b1 b2 b3 : Byte) : Word :=
  b3.setWidth 32 <<< 24 ||| b2.setWidth 32 <<< 16 ||| b1.setWidth 32 <<< 8 ||| b0.setWidth 32

/-- What the decoder reads from a table row's bits, numbered as the opcode table numbers them: bit 0 is the command word's
bit 0. A command is exactly 32 bits (R72), and what other lengths are is DESIGN CHOICE (log 17): fewer than 32 bits are extended
with zeros to a word and decoded, and more than 32 are no command. No CMD write has either length (R46, R50). -/
def decodeTableWord (nbits w : Nat) : Option Instr :=
  if nbits ≤ 32 then
    match decode (BitVec.ofNat 32 (w % 2 ^ nbits)) with
    | .ok i => some i
    | .error _ => none
  else none

end Sys2Proof
end

