-- ==== Sys2Proof/Machine/State.lean ====
section
/-! DEFINITION. The architectural state of one RC4 core (R20, R38), the host interactions it meets (R172), and how a step can
stop. -/

namespace Sys2Proof.Machine

/-- A 256-byte RAM (S or K, R40) as its nonzero cells. An unlisted entry reads as 0, its reset content (R36; log 6). -/
abbrev Memory := List Host.Cell

/-- One interaction of the host with the block (R172). An access names its byte offset in the window (RC4_BASE + offset,
R45) and its size in bytes (R14). -/
inductive HostAction where
  /-- `MemRead(RC4_BASE + offset, size)`. -/
  | read (offset : BitVec 4) (size : Nat)
  /-- `MemWrite(RC4_BASE + offset, size, value)`; at offset 0 with size 4 it issues a command (R46). -/
  | write (offset : BitVec 4) (size : Nat) (value : Word)
  /-- The reset input is asserted between two accesses (R160). -/
  | reset
  /-- The reset input is asserted while the block executes the command of this CMD write (R161). -/
  | resetDuring (word : Word)
  deriving DecidableEq, Repr

/-- The errors a rejected command raises (R141). -/
inductive CommandError where
  /-- KSA with `KEYLEN == 0` (R142). -/
  | invalidKey
  /-- XFORM with `VALID == 0` (R143). -/
  | notScheduled
  /-- A word that decodes as ILLEGAL (R144). -/
  | illegalCommand
  deriving DecidableEq, Repr

/-- The state of one instance: R20's eight pieces under R38's names, and three fields of the model's own about the host. -/
structure State where
  /-- The permutation RAM (R25). -/
  S : Memory
  /-- The key RAM (R26). -/
  K : Memory
  /-- The key length register, 9 bits, legal 0..256 (R27). -/
  KEYLEN : BitVec 9
  /-- Cursor `cursor_a` (R23). -/
  I : Byte
  /-- Cursor `cursor_b` (R24). -/
  J : Byte
  /-- S, I, J hold a scheduled state (R29). -/
  VALID : Bool
  /-- The code of the most recent rejected command (R30, R141). -/
  ERR : BitVec 4
  /-- The output register (R31). -/
  DOUT : Byte
  /-- The model's own: the index of the next command in the host's command list (R21; log 3). -/
  cmdIndex : Nat
  /-- The model's own: the host interactions still to come, the next one first (R174; log 1). -/
  pending : List HostAction
  /-- The model's own: the values the host's reads returned, oldest first (R174; log 4). -/
  reads : List Word
  deriving DecidableEq, Repr

/-- Faults of the machine: there are none. The block has no trap (R140), no index is out of range (R40), and the one bus
error is refused (R50), so nobody raises a fault (log 16). -/
inductive Fault where
  deriving DecidableEq, Repr

/-- Why a step has no next state. -/
inductive Refusal where
  /-- Raised by an arm of `exec` whose instruction has no meaning yet; none is left. Safe: the machine stops. -/
  | notModelled (mnemonic : String)
  /-- Raised by a step whose host access gets a bus error: a size other than 4 bytes or an offset that is no multiple of 4.
  "A model refuses such an access" (R50, U12). Safe: the machine stops where the block would be left unchanged. -/
  | unsupportedAccess
  deriving DecidableEq, Repr

/-- What a command or a step answers. -/
abbrev Result := Host.Outcome State Fault Refusal

/-- The reset state (R36, R160), with no command issued, no interaction to come and no value read (log 1, 3, 4). -/
def State.reset : State :=
  { S := [], K := [], KEYLEN := 0#9, I := 0#8, J := 0#8, VALID := false, ERR := 0#4, DOUT := 0#8,
    cmdIndex := 0, pending := [], reads := [] }

end Sys2Proof.Machine
end

