-- ==== Sys2Proof/Machine/Ops.lean ====
section
/-! DEFINITION. The operations over the two RAMs and the registers, and the one way a command is rejected (R12, R13). -/

namespace Sys2Proof.Machine

/-- What an unlisted entry of S or K reads as: the reset content (R36). -/
def Memory.unlisted : Byte := 0#8

/-- The value held for address `a`. -/
def Memory.lookup : Memory → Nat → Byte
  | [], _ => Memory.unlisted
  | (b, v) :: m, a => if b = a then v else Memory.lookup m a

/-- `S[n]` or `K[n]`: every 8-bit index is in range (R12, R40). -/
def Memory.read (m : Memory) (a : Byte) : Byte := Memory.lookup m a.toNat

/-- The memory with no cell for address `a`. -/
def Memory.without : Memory → Nat → Memory
  | [], _ => []
  | (b, v) :: m, a => if b = a then Memory.without m a else (b, v) :: Memory.without m a

/-- The memory with a cell for `a` set before the first greater address. -/
def Memory.place : Memory → Nat → Byte → Memory
  | [], a, v => [(a, v)]
  | (b, w) :: m, a, v => if a < b then (a, v) :: (b, w) :: m else (b, w) :: Memory.place m a v

/-- `S[n] <- v` or `K[n] <- v` (R12). Writing the unlisted value removes the cell, so that equal memories are equal data. -/
def Memory.write (m : Memory) (a v : Byte) : Memory :=
  if v = Memory.unlisted then Memory.without m a.toNat else Memory.place (Memory.without m a.toNat) a.toNat v

/-- `swap(S[a], S[b])` with a fresh temporary (R12); nothing changes when `a = b`. -/
def Memory.swap (m : Memory) (a b : Byte) : Memory :=
  let t := m.read a
  (m.write a (m.read b)).write b t

/-- Cells at rising addresses from `lo` on and below 256, none holding the unlisted value. -/
def Memory.wfFrom (lo : Nat) : Memory → Bool
  | [] => true
  | (a, v) :: m => decide (lo ≤ a) && decide (a < 256) && decide (v ≠ Memory.unlisted) && Memory.wfFrom (a + 1) m

/-- The canonical form of a RAM (log 6). -/
def Memory.wf (m : Memory) : Bool := Memory.wfFrom 0 m

/-- The indexes 0..255 in ascending order, both ends inclusive (R12, 90_conflicts.md C1). -/
def byteIndexes : List Nat := List.range 256

/-- `for n in 0..255: S[n] <- n` (R85). Every entry is written, so the old content has no effect (log 8). -/
@[irreducible] def Memory.identity : Memory :=
  byteIndexes.foldl (fun m n => m.write (BitVec.ofNat 8 n) (BitVec.ofNat 8 n)) []

/-- `for n in 0..255: S[n] <- 0` (R120): every entry reads as the unlisted value. -/
def Memory.zeroed : Memory := []

/-- `code(E)`, the value of STATUS.ERR for each error (R141). -/
def errorCode : CommandError → BitVec 4
  | .invalidKey => 1#4
  | .notScheduled => 2#4
  | .illegalCommand => 3#4

/-- `raise E`: the command ends, ERR takes the error's code and nothing else changes (R13, R140, R148). This is the block's
whole exception entry: there is no handler, no saved state and no mode. -/
def raise (e : CommandError) (s : State) : Result := .next { s with ERR := errorCode e }

/-- The return side of an error: nothing was entered, and ERR is cleared (R149, R128). -/
def clearError (s : State) : State := { s with ERR := 0#4 }

/-- `DOUT <- v` (R31). -/
def State.setDout (s : State) (v : Byte) : State := { s with DOUT := v }

/-- `K[idx] <- byte` (R80). -/
def State.setKeyByte (s : State) (idx byte : Byte) : State := { s with K := s.K.write idx byte }

/-- The block's whole state at its reset values (R36, R160). The host's own fields stay: the reset input is one of the host's
interactions and ends neither its command list nor what it has read (log 3, 4). -/
def State.resetBlock (s : State) : State :=
  { State.reset with cmdIndex := s.cmdIndex, pending := s.pending, reads := s.reads }

/-- One more command has been issued: "that index advances by exactly one for every CMD write" (R21). -/
def State.countCommand (s : State) : State := { s with cmdIndex := s.cmdIndex + 1 }

/-- The host's read returned `v` (R174). -/
def State.recordRead (s : State) (v : Word) : State := { s with reads := s.reads ++ [v] }

end Sys2Proof.Machine
end

