-- ==== Sys2Proof/Machine/Flags.lean ====
section
/-! DEFINITION. The STATUS view and the two state checks commands make on it (R28, R29, R147). -/

namespace Sys2Proof.Machine

/-- STATUS: KEYLEN in 24:16, ERR in 7:4, VALID in 0, reserved bits hardwired 0 (R28). R28's concatenation is written here as
the fields shifted to their places. -/
def statusWord (s : State) : Word :=
  s.KEYLEN.setWidth 32 <<< 16 ||| s.ERR.setWidth 32 <<< 4 ||| (BitVec.ofBool s.VALID).setWidth 32

/-- KSA's state check fails: the key is empty (R142). -/
def keyIsEmpty (s : State) : Bool := decide (s.KEYLEN = 0#9)

/-- XFORM's state check fails: no scheduled state (R143). -/
def unscheduled (s : State) : Bool := !s.VALID

end Sys2Proof.Machine
end

