-- ==== Sys2Proof/Machine/Operands.lean ====
section
/-! DEFINITION. How a command's operands select state: a cursor (R63, R126) and a key byte (R42, R85). The fields themselves are
taken from the word in `Decode`. -/

namespace Sys2Proof.Machine

/-- The cursor a CREAD operand selects (R126). -/
def State.cursor (s : State) : CursorSel → Byte
  | .i => s.I
  | .j => s.J

/-- `K[n mod L]`: the key byte that iteration `n` of the key schedule adds (R42, R85). -/
def keyByte (K : Memory) (L n : Nat) : Byte := K.read (BitVec.ofNat 8 (n % L))

end Sys2Proof.Machine
end

