-- ==== Sys2Proof/Machine/KeyScheduler.lean ====
section
/-! DEFINITION. The key scheduler commands KEYWR, KEYLEN and KSA (40_key_scheduler.md). -/

namespace Sys2Proof.Machine

/-- KEYWR (R80). -/
def execKeywr (idx byte : Byte) (s : State) : Result := .next (s.setKeyByte idx byte)

/-- KEYLEN (R82). -/
def execKeylen (len : BitVec 9) (s : State) : Result := .next { s with KEYLEN := len }

/-- One iteration of the key schedule on the permutation and the accumulator: the accumulator is reduced modulo 256 before it
is used as an index (R85, 90_conflicts.md C5). -/
def ksaIteration (K : Memory) (L : Nat) (p : Memory × Byte) (n : Nat) : Memory × Byte :=
  let acc := p.2 + p.1.read (BitVec.ofNat 8 n) + keyByte K L n
  (p.1.swap (BitVec.ofNat 8 n) acc, acc)

/-- The permutation that key bytes `K[0..L-1]` schedule: 256 iterations from the identity with the accumulator at 0, which does
not outlive the command (R34, R85, R86). -/
@[irreducible] def keySchedule (K : Memory) (L : Nat) : Memory :=
  (byteIndexes.foldl (ksaIteration K L) (Memory.identity, 0#8)).1

/-- KSA (R85). -/
def execKsa (s : State) : Result :=
  if keyIsEmpty s then raise .invalidKey s
  else .next { s with S := keySchedule s.K s.KEYLEN.toNat, I := 0#8, J := 0#8, VALID := true }

end Sys2Proof.Machine
end

