-- ==== Sys2Proof/Machine/Keystream.lean ====
section
/-! DEFINITION. The keystream transformer command XFORM (41_keystream.md). -/

namespace Sys2Proof.Machine

/-- Steps 1 to 3 of R100: advance `I`, add `S[I]` to `J`, swap the two entries. -/
def State.advanceCursors (s : State) : State :=
  let i := s.I + 1#8
  let j := s.J + s.S.read i
  { s with I := i, J := j, S := s.S.swap i j }

/-- Step 4 of R100: `S[S[I] + S[J]]`, read after the swap. -/
def State.keystreamByte (s : State) : Byte := s.S.read (s.S.read s.I + s.S.read s.J)

/-- XFORM (R100). -/
def execXform (byte : Byte) (s : State) : Result :=
  if unscheduled s then raise .notScheduled s
  else
    let t := s.advanceCursors
    .next (t.setDout (byte ^^^ t.keystreamByte))

end Sys2Proof.Machine
end

