-- ==== Sys2Proof/Machine/Lifecycle.lean ====
section
/-! DEFINITION. The lifecycle, readback and status commands ZERO, NOP, SREAD, CREAD and CLRERR (42_lifecycle_status.md). -/

namespace Sys2Proof.Machine

/-- ZERO: everything but ERR (R120). -/
def execZero (s : State) : Result :=
  .next { s with S := Memory.zeroed, K := Memory.zeroed, I := 0#8, J := 0#8, KEYLEN := 0#9, DOUT := 0#8, VALID := false }

/-- NOP (R122). -/
def execNop (s : State) : Result := .next s

/-- SREAD, accepted whether or not a state is scheduled (R124). -/
def execSread (idx : Byte) (s : State) : Result := .next (s.setDout (s.S.read idx))

/-- CREAD, accepted whether or not a state is scheduled (R126). -/
def execCread (sel : CursorSel) (s : State) : Result := .next (s.setDout (s.cursor sel))

/-- CLRERR (R128). -/
def execClrerr (s : State) : Result := .next (clearError s)

end Sys2Proof.Machine
end

