-- ==== Sys2Proof/Machine/Dispatch.lean ====
section
/-! DEFINITION. One arm per command (R67), each one call of the command's meaning. -/

namespace Sys2Proof.Machine

def exec (i : Instr) (s : State) : Host.Outcome State Fault Refusal :=
  match i with
  | .nop => Sys2Proof.Machine.execNop s
  | .keywr idx byte => Sys2Proof.Machine.execKeywr idx byte s
  | .keylen len => Sys2Proof.Machine.execKeylen len s
  | .ksa => Sys2Proof.Machine.execKsa s
  | .xform byte => Sys2Proof.Machine.execXform byte s
  | .sread idx => Sys2Proof.Machine.execSread idx s
  | .cread sel => Sys2Proof.Machine.execCread sel s
  | .zero => Sys2Proof.Machine.execZero s
  | .clrerr => Sys2Proof.Machine.execClrerr s

end Sys2Proof.Machine
end

