-- ==== Sys2Proof/Machine/HostBus.lean ====
section
/-! DEFINITION. The register window and the host interactions (R45 to R50, R160, R161, R172): what one interaction does to the
block, the addresses of the window, and runs of commands. -/

namespace Sys2Proof.Machine

/-- A CMD write: the block decodes the word and executes the command it selects, or rejects it with ILLEGAL_COMMAND; either way
the host's command index has advanced (R21, R46, R66, R147). -/
def issueCommand (w : Word) (s : State) : Result :=
  match decode w with
  | .ok i => exec i s.countCommand
  | .error _ => raise .illegalCommand s.countCommand

/-- The window supports the access: 32 bits at a multiple of 4 (R50). -/
def accessSupported (offset : BitVec 4) (size : Nat) : Bool := decide (size = 4) && decide (offset.toNat % 4 = 0)

/-- What a read of the register at `offset` returns: STATUS at 0x4, DOUT at 0x8, and 0 for CMD and 0xC (R47, R48, R49). -/
def registerValue (offset : BitVec 4) (s : State) : Word :=
  if offset = 0x4#4 then statusWord s
  else if offset = 0x8#4 then s.DOUT.setWidth 32
  else 0#32

/-- A host read: no side effect on the block (R53). -/
def busRead (offset : BitVec 4) (size : Nat) (s : State) : Result :=
  if accessSupported offset size then .next (s.recordRead (registerValue offset s))
  else .refused .unsupportedAccess

/-- A host write: at CMD it issues a command, at STATUS, DOUT and 0xC it is ignored (R46, R49). -/
def busWrite (offset : BitVec 4) (size : Nat) (value : Word) (s : State) : Result :=
  if accessSupported offset size then
    if offset = 0x0#4 then issueCommand value s else .next s
  else .refused .unsupportedAccess

/-- One host interaction (R172). A reset in the middle of a command abandons it and leaves the reset state; the CMD write had
been issued, so the command index advances (R21, R161; log 12). -/
def perform (a : HostAction) (s : State) : Result :=
  match a with
  | .read offset size => busRead offset size s
  | .write offset size value => busWrite offset size value s
  | .reset => .next s.resetBlock
  | .resetDuring _ => .next s.countCommand.resetBlock

/-- Perform the host's next interaction. With none to come the block stays as it is: it never acts on its own (R35, R157;
log 2). -/
def performNext (s : State) : Result :=
  match s.pending with
  | [] => .next s
  | a :: rest => perform a { s with pending := rest }

/-- The interaction that issues command word `w`. -/
def commandWrite (w : Word) : HostAction := .write 0x0#4 4 w

/-- The state at the start of a run: reset, with the host's interactions still to come (R174). -/
def startRun (actions : List HostAction) : State := { State.reset with pending := actions }

/-- The offset of a host byte address in the window of core `k`, or none where the address is outside that window (R45, R155). -/
def windowOffset (k addr : Nat) : Option (BitVec 4) :=
  if Config.rc4Base k ≤ addr ∧ addr < Config.rc4Base k + 16 then some (BitVec.ofNat 4 (addr - Config.rc4Base k)) else none

/-- `MemRead(addr, size)` as an interaction with core `k`; none where `addr` is not that core's (R14; log 9). -/
def memRead (k addr size : Nat) : Option HostAction := (windowOffset k addr).map fun o => .read o size

/-- `MemWrite(addr, size, v)` as an interaction with core `k`; none where `addr` is not that core's (R14; log 9). -/
def memWrite (k addr size : Nat) (v : Word) : Option HostAction := (windowOffset k addr).map fun o => .write o size v

/-- Execute commands in order, stopping where one has no next state (none has, from any state). -/
def execAll : List Instr → State → Result
  | [], s => .next s
  | i :: is, s =>
    match exec i s with
    | .next t => execAll is t
    | .fault r => .fault r
    | .refused r => .refused r

/-- The source's `transform(state, buffer)`: one XFORM per byte in ascending order, the host reading DOUT after each (R103).
Gives the bytes read and the state after. A buffer of length 0 changes nothing (R104). -/
def transform : List Byte → State → List Byte × State
  | [], s => ([], s)
  | b :: bs, s =>
    match exec (.xform b) s with
    | .next t => ((t.DOUT :: (transform bs t).1), (transform bs t).2)
    | .fault _ => ([], s)
    | .refused _ => ([], s)

end Sys2Proof.Machine
end

