-- ==== Sys2Proof/Machine/Step.lean ====
section
/-! DEFINITION. The machine's step: the block runs no program of its own, so a step performs the host's next interaction
(R3, R21, R174). -/

namespace Sys2Proof.Machine

/-- One step: the host's next interaction, performed whole (R52). -/
def step (s : State) : Host.Outcome State Fault Refusal := performNext s

/-- `s` with the CMD write of this word as the host's next interaction, so that the next step issues exactly it (log 1). The
bits above `nbits` are 0, and a word of another length than 32 bits is DESIGN CHOICE (log 17). -/
def State.withFetchWord (s : State) (nbits w : Nat) : State :=
  { s with pending := commandWrite (BitVec.ofNat 32 (w % 2 ^ nbits)) :: s.pending }

end Sys2Proof.Machine
end

