-- ==== Sys2Proof/Machine/Assembler.lean ====
section
/-! DEFINITION. The assembler syntax and the pseudo-instructions (R73, R74). No pseudo-instruction has a word of its own: each
is the listed commands in the listed order. -/

namespace Sys2Proof.Machine

/-- `ks` (R74). -/
def ksCommands : List Instr := [.xform 0#8]

/-- `setkey b0, ..., bL-1`: KEYWR for each position in order, KEYLEN, KSA (R74). -/
def setkeyCommands (key : List Byte) : List Instr :=
  key.mapIdx (fun n b => Instr.keywr (BitVec.ofNat 8 n) b) ++ [.keylen (BitVec.ofNat 9 key.length), .ksa]

/-- `xbuf b0, ..., bn-1`: one XFORM per byte; for n = 0 nothing (R74). -/
def xbufCommands (buffer : List Byte) : List Instr := buffer.map Instr.xform

/-- `wipe` (R74). -/
def wipeCommands : List Instr := [.zero, .clrerr]

/-- A line of assembly, its operands the numbers as written (R73, R74). -/
inductive AsmLine where
  | nop
  | keywr (idx byte : Nat)
  | keylen (len : Nat)
  | ksa
  | xform (byte : Nat)
  | sread (idx : Nat)
  | cread (sel : Nat)
  | zero
  | clrerr
  /-- `.word w`: "the only way to write an illegal word" (R73). -/
  | word (w : Nat)
  | ks
  | setkey (key : List Nat)
  | xbuf (buffer : List Nat)
  | wipe
  deriving DecidableEq, Repr

/-- A number as an operand of `bits` bits; out of range it is an assembly error (R73). -/
def asmOperand (bits n : Nat) : Option (BitVec bits) := if n < 2 ^ bits then some (BitVec.ofNat bits n) else none

/-- Numbers as byte operands. -/
def asmBytes : List Nat → Option (List Byte)
  | [] => some []
  | n :: ns =>
    match asmOperand 8 n, asmBytes ns with
    | some b, some bs => some (b :: bs)
    | _, _ => none

/-- The words of a line, or none for an assembly error (R73, R74). -/
def assembleLine : AsmLine → Option (List Word)
  | .nop => some [encode .nop]
  | .keywr idx byte =>
    match asmOperand 8 idx, asmOperand 8 byte with
    | some i, some b => some [encode (.keywr i b)]
    | _, _ => none
  | .keylen len => if len ≤ 256 then some [encode (.keylen (BitVec.ofNat 9 len))] else none
  | .ksa => some [encode .ksa]
  | .xform byte => (asmOperand 8 byte).map fun b => [encode (.xform b)]
  | .sread idx => (asmOperand 8 idx).map fun i => [encode (.sread i)]
  | .cread sel => if sel = 0 then some [encode (.cread .i)] else if sel = 1 then some [encode (.cread .j)] else none
  | .zero => some [encode .zero]
  | .clrerr => some [encode .clrerr]
  | .word w => (asmOperand 32 w).map fun v => [v]
  | .ks => some (ksCommands.map encode)
  | .setkey key =>
    if 1 ≤ key.length ∧ key.length ≤ 256 then (asmBytes key).map fun bs => (setkeyCommands bs).map encode else none
  | .xbuf buffer => (asmBytes buffer).map fun bs => (xbufCommands bs).map encode
  | .wipe => some (wipeCommands.map encode)

/-- The tokens of a line's text. -/
inductive AsmToken where
  /-- A mnemonic, a cursor name or a number. -/
  | word (cs : List Char)
  /-- A character literal, standing for its ASCII code (R73). -/
  | char (code : Nat)
  /-- A key given as text (R74). -/
  | text (cs : List Char)
  | comma
  deriving DecidableEq, Repr

/-- Where the lexer stands; the characters gathered so far are in reverse. -/
inductive LexMode where
  | between
  | inWord (acc : List Char)
  | inText (acc : List Char)
  | charOpen
  | charRead (c : Char)
  deriving DecidableEq, Repr

/-- The apostrophe of a character literal (R73). -/
def apostrophe : Char := Char.ofNat 39

/-- The quotation mark around a key given as text (R74). -/
def quotationMark : Char := Char.ofNat 34

/-- Space or tab, allowed between tokens (log 15). -/
def isBlank (c : Char) : Bool := decide (c = ' ') || decide (c = Char.ofNat 9)

/-- A line's tokens, or none where it is no assembly text; a comment starts with `;` (R73). Where blanks may and must stand is
DESIGN CHOICE (log 15): a blank or a comma must end a mnemonic, cursor name or number before a quote, so that `xform'B'` is an
assembly error; nothing need stand between the closing quote of a literal or text and what follows it, or before a comment. -/
def lex (mode : LexMode) : List Char → Option (List AsmToken)
  | [] =>
    match mode with
    | .between => some []
    | .inWord acc => some [.word acc.reverse]
    | .inText _ | .charOpen | .charRead _ => none
  | c :: cs =>
    match mode with
    | .between =>
      if isBlank c then lex .between cs
      else if c = ';' then some []
      else if c = ',' then (lex .between cs).map (.comma :: ·)
      else if c = apostrophe then lex .charOpen cs
      else if c = quotationMark then lex (.inText []) cs
      else lex (.inWord [c]) cs
    | .inWord acc =>
      if isBlank c then (lex .between cs).map (.word acc.reverse :: ·)
      else if c = ';' then some [.word acc.reverse]
      else if c = ',' then (lex .between cs).map ([.word acc.reverse, .comma] ++ ·)
      else if c = apostrophe ∨ c = quotationMark then none
      else lex (.inWord (c :: acc)) cs
    | .inText acc =>
      if c = quotationMark then (lex .between cs).map (.text acc.reverse :: ·) else lex (.inText (c :: acc)) cs
    | .charOpen => lex (.charRead c) cs
    | .charRead v => if c = apostrophe ∧ v.toNat < 128 then (lex .between cs).map (.char v.toNat :: ·) else none

/-- A digit's value, decimal or hexadecimal (either letter case; log 15). -/
def digitValue (base : Nat) (c : Char) : Option Nat :=
  let n := c.toNat
  let v := if 48 ≤ n ∧ n ≤ 57 then n - 48 else if 97 ≤ n ∧ n ≤ 102 then n - 87 else if 65 ≤ n ∧ n ≤ 70 then n - 55 else base
  if v < base then some v else none

/-- The number whose digits follow `acc`. -/
def digits (base acc : Nat) : List Char → Option Nat
  | [] => some acc
  | c :: cs => (digitValue base c).bind fun v => digits base (acc * base + v) cs

/-- A decimal number, or a hexadecimal one after `0x` (R73). -/
def asmNumber : List Char → Option Nat
  | [] => none
  | ['0', 'x'] => none
  | '0' :: 'x' :: cs => digits 16 0 cs
  | cs => digits 10 0 cs

/-- A token as a number: decimal, hexadecimal or a character literal (R73). -/
def tokenNumber : AsmToken → Option Nat
  | .word cs => asmNumber cs
  | .char code => some code
  | .text _ | .comma => none

/-- One or more numbers separated by commas (R73). -/
def numberList : List AsmToken → Option (List Nat)
  | [] => none
  | [t] => (tokenNumber t).map fun n => [n]
  | t :: .comma :: ts => (tokenNumber t).bind fun n => (numberList ts).map (n :: ·)
  | _ :: _ :: _ => none

/-- The ASCII codes of a key given as text (R74). -/
def asciiCodes (cs : List Char) : Option (List Nat) :=
  if cs.all (fun c => decide (c.toNat < 128)) then some (cs.map Char.toNat) else none

/-- A line's mnemonic and operand tokens as a line (R73, R74). -/
def parseTokens : List AsmToken → Option AsmLine
  | [.word ['n', 'o', 'p']] => some .nop
  | [.word ['k', 's', 'a']] => some .ksa
  | [.word ['z', 'e', 'r', 'o']] => some .zero
  | [.word ['c', 'l', 'r', 'e', 'r', 'r']] => some .clrerr
  | [.word ['k', 's']] => some .ks
  | [.word ['w', 'i', 'p', 'e']] => some .wipe
  | [.word ['x', 'b', 'u', 'f']] => some (.xbuf [])
  | [.word ['c', 'r', 'e', 'a', 'd'], .word ['i']] => some (.cread 0)
  | [.word ['c', 'r', 'e', 'a', 'd'], .word ['j']] => some (.cread 1)
  | [.word ['s', 'e', 't', 'k', 'e', 'y'], .text cs] => (asciiCodes cs).map .setkey
  | .word ['s', 'e', 't', 'k', 'e', 'y'] :: ts => (numberList ts).map .setkey
  | .word ['x', 'b', 'u', 'f'] :: ts => (numberList ts).map .xbuf
  | .word ['k', 'e', 'y', 'w', 'r'] :: ts =>
    match numberList ts with
    | some [idx, byte] => some (.keywr idx byte)
    | _ => none
  | .word ['k', 'e', 'y', 'l', 'e', 'n'] :: ts =>
    match numberList ts with
    | some [len] => some (.keylen len)
    | _ => none
  | .word ['x', 'f', 'o', 'r', 'm'] :: ts =>
    match numberList ts with
    | some [byte] => some (.xform byte)
    | _ => none
  | .word ['s', 'r', 'e', 'a', 'd'] :: ts =>
    match numberList ts with
    | some [idx] => some (.sread idx)
    | _ => none
  | .word ['c', 'r', 'e', 'a', 'd'] :: ts =>
    match numberList ts with
    | some [sel] => some (.cread sel)
    | _ => none
  | .word ['.', 'w', 'o', 'r', 'd'] :: ts =>
    match numberList ts with
    | some [w] => some (.word w)
    | _ => none
  | _ => none

/-- The words of one line of assembly text: none of them for a blank or comment line, and no answer for an assembly error
(R73, R74). -/
def assembleText (line : List Char) : Option (List Word) :=
  match lex .between line with
  | none => none
  | some [] => some []
  | some ts => (parseTokens ts).bind assembleLine

end Sys2Proof.Machine
end

