-- ==== Sys2Proof/Machine/Platform.lean ====
section
/-! DEFINITION. A platform of independent cores, each with its own window and its own state (R155), and the host's accesses to it
by address. -/

namespace Sys2Proof.Machine

/-- The cores of a platform, each with its own complete state (R155); core `k` has its window at `Config.rc4Base k`. -/
abbrev Platform (n : Nat) := Vector State n

/-- The platform of N_INST cores, each in its reset state (R9, R36). -/
def Platform.reset : Platform Config.instances := Vector.replicate Config.instances State.reset

/-- The platform once core `k` has answered `r` and every other core has stayed as it was: they share nothing (R155). -/
def Platform.answer {n : Nat} (p : Platform n) (k : Fin n) (r : Result) : Host.Outcome (Platform n) Fault Refusal :=
  match r with
  | .next t => .next (p.set k.val t k.isLt)
  | .fault f => .fault f
  | .refused f => .refused f

/-- One step of core `k`: no command of one core affects another (R155). -/
def platformStep {n : Nat} (p : Platform n) (k : Fin n) : Host.Outcome (Platform n) Fault Refusal := p.answer k (step p[k])

/-- One interaction of the host with the platform (R14, R172). An access names a host byte address; a reset input belongs to one
core (R160) and is named by it. -/
inductive PlatformAction (n : Nat) where
  /-- `MemRead(addr, size)`. -/
  | read (addr size : Nat)
  /-- `MemWrite(addr, size, value)`. -/
  | write (addr size : Nat) (value : Word)
  /-- The reset input of core `k` is asserted (R160). -/
  | reset (k : Fin n)
  /-- The reset input of core `k` is asserted while it executes this command word (R161). -/
  | resetDuring (k : Fin n) (word : Word)
  deriving DecidableEq, Repr

/-- The core whose window holds a host byte address (of an access, its first; log 9), if any: the base address is all that tells the cores apart (R155). -/
def coreAt (n addr : Nat) : Option (Fin n) := (List.finRange n).find? fun k => (windowOffset k.val addr).isSome

/-- The core an interaction reaches and what it is for that core; none where the address is in no core's window. -/
def route {n : Nat} : PlatformAction n → Option (Fin n × HostAction)
  | .read addr size => (coreAt n addr).bind fun k => (memRead k.val addr size).map fun a => (k, a)
  | .write addr size value => (coreAt n addr).bind fun k => (memWrite k.val addr size value).map fun a => (k, a)
  | .reset k => some (k, .reset)
  | .resetDuring k word => some (k, .resetDuring word)

/-- Perform one interaction: the core it reaches performs it whole. An access whose first address is in no window is not for any
core of the platform and changes none (R45). That the first address alone decides is DESIGN CHOICE (log 9): an access that starts
below a window and reaches into it is such an access too, a next platform with nothing changed and not a refusal. -/
def platformPerform {n : Nat} (a : PlatformAction n) (p : Platform n) : Host.Outcome (Platform n) Fault Refusal :=
  match route a with
  | none => .next p
  | some (k, b) => p.answer k (perform b p[k])

end Sys2Proof.Machine
end

