-- ==== Sys2Proof/Safety.lean ====
section
/-! DEFINITION. The terms claims use: the invariants of the spec, what it is for a word to be accepted or rejected, and the
source's own form of the two algorithms. -/

namespace Sys2Proof.Machine

/-- Both RAMs are in canonical form (log 6). -/
def State.canonical (s : State) : Prop := s.S.wf = true ∧ s.K.wf = true

/-- KEYLEN and ERR hold only values the spec produces (R27, R28, U10; log 7). -/
def State.legalFields (s : State) : Prop := s.KEYLEN.toNat ≤ 256 ∧ s.ERR.toNat ≤ 3

/-- The permutation invariant (R33). -/
def State.permutationHeld (s : State) : Prop := s.VALID = true → Function.Bijective s.S.read

/-- Unscheduled state is all zeros (R121). -/
def State.zeroWhenUnscheduled (s : State) : Prop :=
  s.VALID = false → (∀ a, s.S.read a = 0#8) ∧ s.I = 0#8 ∧ s.J = 0#8 ∧ s.DOUT = 0#8

/-- What the spec says of every state from reset onward, and the canonical form of the two RAMs, which is the model's own (log 6). -/
def State.Inv (s : State) : Prop :=
  s.canonical ∧ s.legalFields ∧ s.permutationHeld ∧ s.zeroWhenUnscheduled

/-- A CMD write of `w` executes command `i`, from every state (R46, R66). -/
def wordSelects (w : Word) (i : Instr) : Prop := ∀ s : State, issueCommand w s = exec i s.countCommand

/-- A CMD write of `w` is rejected with ILLEGAL_COMMAND from every state: ERR takes 3, and nothing else of the block changes
(R13, R140, R144). -/
def wordIllegal (w : Word) : Prop :=
  ∀ s : State, issueCommand w s = .next { s with ERR := 3#4, cmdIndex := s.cmdIndex + 1 }

/-- The error with which a CMD write of `w` is rejected in state `s`, the decode check first (R147); none where it is accepted
(R140). -/
def rejection (w : Word) (s : State) : Option CommandError :=
  match decode w with
  | .error _ => some .illegalCommand
  | .ok .ksa => if s.KEYLEN = 0#9 then some .invalidKey else none
  | .ok (.xform _) => if s.VALID = false then some .notScheduled else none
  | .ok _ => none

/-- The two states agree in all of the block but the key RAM, and in what the host has read. -/
def State.sameButKey (s t : State) : Prop := { s with K := t.K } = t

/-- The state a CMD write leaves (it leaves one from every state). -/
def afterWord (w : Word) (s : State) : State :=
  match issueCommand w s with
  | .next t => t
  | .fault _ => s
  | .refused _ => s

/-- The state that CMD writes of the words, in order, leave. -/
def afterWords : List Word → State → State
  | [], s => s
  | w :: ws, s => afterWords ws (afterWord w s)

/-- No accepted KSA and no accepted ZERO is among the words, issued in order from `s` (R107). -/
def uninterrupted : List Word → State → Prop
  | [], _ => True
  | w :: ws, s =>
    decode w ≠ .ok .zero ∧ (decode w = .ok .ksa → s.KEYLEN = 0#9) ∧ uninterrupted ws (afterWord w s)

/-- The bytes of the XFORM words, in order. -/
def xformBytes : List Word → List Byte
  | [] => []
  | w :: ws =>
    match decode w with
    | .ok (.xform b) => b :: xformBytes ws
    | .ok _ => xformBytes ws
    | .error _ => xformBytes ws

/-- What the host reads from DOUT after each XFORM word, the words issued in order from `s`. -/
def xformOutputs : List Word → State → List Byte
  | [], _ => []
  | w :: ws, s =>
    match decode w with
    | .ok (.xform _) => (afterWord w s).DOUT :: xformOutputs ws (afterWord w s)
    | .ok _ => xformOutputs ws (afterWord w s)
    | .error _ => xformOutputs ws (afterWord w s)

/-- The two states hold the same key: the same nonzero KEYLEN and the same bytes `K[0..KEYLEN-1]` (R88). -/
def sameKey (s t : State) : Prop :=
  s.KEYLEN ≠ 0#9 ∧ t.KEYLEN = s.KEYLEN ∧
    ∀ n, n < s.KEYLEN.toNat → s.K.read (BitVec.ofNat 8 n) = t.K.read (BitVec.ofNat 8 n)

/-- A permutation as the source writes it, a function from index to entry (§3, R25). -/
abbrev SourcePerm := Byte → Byte

/-- The source's swap of two entries (R12). -/
def sourceSwap (p : SourcePerm) (a b : Byte) : SourcePerm :=
  fun c => if c = a then p b else if c = b then p a else p c

/-- One iteration of the source's key schedule with key bytes `key` and key length `L` (R84). -/
def sourceIteration (key : Nat → Byte) (L : Nat) (x : SourcePerm × Byte) (n : Nat) : SourcePerm × Byte :=
  (sourceSwap x.1 (BitVec.ofNat 8 n) (x.2 + x.1 (BitVec.ofNat 8 n) + key (n % L)),
   x.2 + x.1 (BitVec.ofNat 8 n) + key (n % L))

/-- The source's `schedule`: the identity, then iterations 0 to 255 with the accumulator from 0 (R84, R86). -/
def sourceSchedule (key : Nat → Byte) (L : Nat) : SourcePerm :=
  ((List.range 256).foldl (sourceIteration key L) (fun a => a, 0#8)).1

end Sys2Proof.Machine
end

