-- ==== Sys2Proof/Certificates/Slice0/Obligations.lean ====
section
/-! DEFINITION. The statements for the provers, from the spec's numbered rules. -/

open Sys2Proof Sys2Proof.Machine

/-! ### Encoding -/

/-- The example encodings of R75: each line's text assembles to its word, and the word decodes to the command or is illegal. -/
def Obligations.ExampleEncodingsDecode : Prop :=
  assembleText "keywr 0, 'h'".toList = some [0x10000068#32] ∧ decode 0x10000068#32 = .ok (.keywr 0 0x68) ∧
  assembleText "keywr 4, 'o'".toList = some [0x1000046F#32] ∧ decode 0x1000046F#32 = .ok (.keywr 4 0x6F) ∧
  assembleText "keywr 255, 0xFF".toList = some [0x1000FFFF#32] ∧ decode 0x1000FFFF#32 = .ok (.keywr 255 0xFF) ∧
  assembleText "keylen 5".toList = some [0x20000500#32] ∧ decode 0x20000500#32 = .ok (.keylen 5) ∧
  assembleText "keylen 256".toList = some [0x20010000#32] ∧ decode 0x20010000#32 = .ok (.keylen 256) ∧
  assembleText "xform 'B'".toList = some [0x40000042#32] ∧ decode 0x40000042#32 = .ok (.xform 0x42) ∧
  assembleText "sread 63".toList = some [0x50003F00#32] ∧ decode 0x50003F00#32 = .ok (.sread 63) ∧
  assembleText "cread j".toList = some [0x60000100#32] ∧ decode 0x60000100#32 = .ok (.cread .j) ∧
  assembleText ".word 0x20010100".toList = some [0x20010100#32] ∧ (∀ i, decode 0x20010100#32 ≠ .ok i) ∧
  assembleText ".word 0x10010000".toList = some [0x10010000#32] ∧ (∀ i, decode 0x10010000#32 ≠ .ok i) ∧
  assembleText ".word 0x90000000".toList = some [0x90000000#32] ∧ (∀ i, decode 0x90000000#32 ≠ .ok i) ∧
  assembleText ".word 0x00020000".toList = some [0x00020000#32] ∧ (∀ i, decode 0x00020000#32 ≠ .ok i)

/-- Decoding the word of a well-formed command gives the command back: no operand bit is dropped (R60, R66, R73). -/
def Obligations.DecodeOfEncode : Prop := ∀ i : Instr, i.wf = true → decode (encode i) = .ok i

/-- A word that decodes is the word of the command it decodes to, and that command is well-formed (R66, R67). -/
def Obligations.EncodeOfDecode : Prop := ∀ (w : Word) (i : Instr), decode w = .ok i → i.wf = true ∧ encode i = w

/-- The decoder and the opcode map say the same thing, and no word selects two rows (R67). -/
def Obligations.DecoderAgreesWithOpcodeMap : Prop :=
  ∀ w : Word,
    (∀ i, decode w = .ok i → ∃ r ∈ opcodeMap, r.mnemonic = mnemonicOf i ∧ rowSelects r w = true) ∧
    ((∃ r ∈ opcodeMap, rowSelects r w = true) → ∃ i, decode w = .ok i) ∧
    opcodeMap.Pairwise (fun r r' => ¬ (rowSelects r w = true ∧ rowSelects r' w = true))

/-- The illegal words of R62, R68 and R69: each raises ILLEGAL_COMMAND from every state. -/
def Obligations.ReservedEncodingsAreIllegal : Prop :=
  ∀ w : Word,
    (9 ≤ (opField w).toNat → wordIllegal w) ∧
    (rsvField w ≠ 0#11 → wordIllegal w) ∧
    (opField w ∈ [0x0#4, 0x3#4, 0x4#4, 0x7#4, 0x8#4] → aField w ≠ 0#9 → wordIllegal w) ∧
    (opField w ∈ [0x0#4, 0x2#4, 0x3#4, 0x5#4, 0x6#4, 0x7#4, 0x8#4] → dField w ≠ 0#8 → wordIllegal w) ∧
    (opField w ∈ [0x1#4, 0x5#4] → (aField w)[8] = true → wordIllegal w) ∧
    (opField w = 0x2#4 → 256 < (aField w).toNat → wordIllegal w) ∧
    (opField w = 0x6#4 → 1 < (aField w).toNat → wordIllegal w)

/-- The counts of legal words, per command and in all (R71). -/
def Obligations.LegalWordCounts : Prop :=
  (∀ c ∈ [("NOP", 1), ("KEYWR", 65536), ("KEYLEN", 257), ("KSA", 1), ("XFORM", 256), ("SREAD", 256), ("CREAD", 2),
      ("ZERO", 1), ("CLRERR", 1)],
    Set.ncard {w : Word | ∃ i, decode w = .ok i ∧ mnemonicOf i = c.1} = c.2) ∧
  Set.ncard {w : Word | ∃ i, decode w = .ok i} = 66311 ∧
  Set.ncard {w : Word | ∀ i, decode w ≠ .ok i} = 4294900985

/-- The assembler's word for each command, and that an operand out of range is an assembly error (R73). -/
def Obligations.AssemblerFollowsSyntaxTable : Prop :=
  assembleLine .nop = some [0x00000000#32] ∧ assembleLine .ksa = some [0x30000000#32] ∧
  assembleLine .zero = some [0x70000000#32] ∧ assembleLine .clrerr = some [0x80000000#32] ∧
  assembleLine (.cread 0) = some [0x60000000#32] ∧ assembleLine (.cread 1) = some [0x60000100#32] ∧
  (∀ n, 1 < n → assembleLine (.cread n) = none) ∧
  (∀ a b, assembleLine (.keywr a b) =
    if a < 256 ∧ b < 256 then some [BitVec.ofNat 32 (0x10000000 + a * 256 + b)] else none) ∧
  (∀ n, assembleLine (.keylen n) = if n ≤ 256 then some [BitVec.ofNat 32 (0x20000000 + n * 256)] else none) ∧
  (∀ b, assembleLine (.xform b) = if b < 256 then some [BitVec.ofNat 32 (0x40000000 + b)] else none) ∧
  (∀ a, assembleLine (.sread a) = if a < 256 then some [BitVec.ofNat 32 (0x50000000 + a * 256)] else none) ∧
  (∀ w, assembleLine (.word w) = if w < 2 ^ 32 then some [BitVec.ofNat 32 w] else none)

/-! ### The step and the register window -/

/-- A step whose interaction is a CMD write of a word that decodes to `i` is `exec i`, with the interaction consumed and the
command index advanced (R46, R66). So is a step after `withFetchWord` of any bits that `decodeTableWord` reads as `i`: that the
host's interactions stand in the state, where `withFetchWord` puts a CMD write, that fewer than 32 bits are extended with zeros,
and that more than 32 are no command, is the model's choice (log 1, 17). -/
def Obligations.StepRunsDecodedCommand : Prop :=
  (∀ (s : State) (w : Word) (i : Instr) (rest : List HostAction),
    s.pending = .write 0x0#4 4 w :: rest → decode w = .ok i →
      step s = exec i { s with pending := rest, cmdIndex := s.cmdIndex + 1 }) ∧
  (∀ (s : State) (nbits w : Nat) (i : Instr),
    decodeTableWord nbits w = some i →
      step (s.withFetchWord nbits w) = exec i { s with cmdIndex := s.cmdIndex + 1 })

/-- A step whose interaction is a CMD write of an ILLEGAL word sets ERR to 3 and changes nothing else of the block (R144). -/
def Obligations.StepRejectsIllegalWord : Prop :=
  ∀ (s : State) (w : Word) (e : DecodeError) (rest : List HostAction),
    s.pending = .write 0x0#4 4 w :: rest → decode w = .error e →
      step s = .next { s with ERR := 3#4, pending := rest, cmdIndex := s.cmdIndex + 1 }

/-- A STATUS read returns KEYLEN, ERR and VALID in their bits and 0 in the reserved bits, with no effect on the block (R28, R47). -/
def Obligations.StatusReadShowsFields : Prop :=
  ∀ (s : State) (rest : List HostAction), s.pending = .read 0x4#4 4 :: rest →
    ∃ v : Word, step s = .next { s with pending := rest, reads := s.reads ++ [v] } ∧
      v.getLsbD 0 = s.VALID ∧ v.extractLsb' 1 3 = 0#3 ∧ v.extractLsb' 4 4 = s.ERR ∧ v.extractLsb' 8 8 = 0#8 ∧
      v.extractLsb' 16 9 = s.KEYLEN ∧ v.extractLsb' 25 7 = 0#7

/-- A DOUT read returns DOUT zero-extended and changes nothing, so a second read returns the same (R48). -/
def Obligations.DoutReadReturnsDout : Prop :=
  ∀ (s : State) (rest : List HostAction), s.pending = .read 0x8#4 4 :: .read 0x8#4 4 :: rest →
    ∃ (v : Word) (t : State), step s = .next t ∧
      t = { s with pending := .read 0x8#4 4 :: rest, reads := s.reads ++ [v] } ∧
      step t = .next { s with pending := rest, reads := s.reads ++ [v, v] } ∧
      v.extractLsb' 0 8 = s.DOUT ∧ v.extractLsb' 8 24 = 0#24

/-- CMD and offset 0xC read as 0; writes to STATUS, DOUT and 0xC change nothing of the block (R49). -/
def Obligations.OtherRegistersReadZeroAndIgnoreWrites : Prop :=
  ∀ (s : State) (rest : List HostAction),
    (∀ o : BitVec 4, o = 0x0#4 ∨ o = 0xC#4 → s.pending = .read o 4 :: rest →
      step s = .next { s with pending := rest, reads := s.reads ++ [0#32] }) ∧
    (∀ (o : BitVec 4) (v : Word), o = 0x4#4 ∨ o = 0x8#4 ∨ o = 0xC#4 → s.pending = .write o 4 v :: rest →
      step s = .next { s with pending := rest })

/-- Any access but a 32-bit one at a multiple of 4 is refused, and every such access has a next state (R50). -/
def Obligations.OnlyAlignedWordAccessesSupported : Prop :=
  ∀ (s : State) (rest : List HostAction) (o : BitVec 4) (size : Nat) (v : Word),
    s.pending = .read o size :: rest ∨ s.pending = .write o size v :: rest →
      (¬ (size = 4 ∧ 4 ∣ o.toNat) → step s = .refused .unsupportedAccess) ∧
      (size = 4 ∧ 4 ∣ o.toNat → ∃ t, step s = .next t)

/-- The window of each core is the sixteen addresses from its RC4_BASE, a multiple of 16, and no two cores share an address (R45,
R155). The bases are the model's parameters and its numbering of the cores is its own choice (log 9, 11). -/
def Obligations.WindowHoldsSixteenAddresses : Prop :=
  (∀ k : Nat,
    Config.rc4Base k % 16 = 0 ∧
    (∀ o : BitVec 4, windowOffset k (Config.rc4Base k + o.toNat) = some o) ∧
    (∀ addr, addr < Config.rc4Base k ∨ Config.rc4Base k + 16 ≤ addr → windowOffset k addr = none) ∧
    (∀ (w : Word), memWrite k (Config.rc4Base k + 0x0) 4 w = some (.write 0x0#4 4 w)) ∧
    memRead k (Config.rc4Base k + 0x4) 4 = some (.read 0x4#4 4) ∧
    memRead k (Config.rc4Base k + 0x8) 4 = some (.read 0x8#4 4)) ∧
  ∀ (j k addr : Nat) (o : BitVec 4), j ≠ k → windowOffset j addr = some o → windowOffset k addr = none

/-- The byte lanes of a register are little-endian: bit `8n + k` is bit `k` of the byte at `+n`, and the four bytes give the
value back (R51). -/
def Obligations.RegisterLanesAreLittleEndian : Prop :=
  ∀ w : Word,
    (∀ (n : Fin 4) (k : Nat), k < 8 → (laneByte w n).getLsbD k = w.getLsbD (8 * n.val + k)) ∧
    wordOfLanes (laneByte w 0) (laneByte w 1) (laneByte w 2) (laneByte w 3) = w

/-- With no host interaction to come a step changes nothing. The model's choice (log 2), not a rule of the spec. -/
def Obligations.IdleStepKeepsState : Prop := ∀ s : State, s.pending = [] → step s = .next s

/-! ### Reset -/

/-- The reset value of every piece of state (R36). -/
def Obligations.ResetStateValues : Prop :=
  (∀ n, State.reset.S.read n = 0#8) ∧ (∀ n, State.reset.K.read n = 0#8) ∧ State.reset.I = 0#8 ∧ State.reset.J = 0#8 ∧
  State.reset.KEYLEN = 0#9 ∧ State.reset.VALID = false ∧ State.reset.ERR = 0#4 ∧ State.reset.DOUT = 0#8 ∧
  statusWord State.reset = 0#32

/-- The reset input, between accesses or in the middle of a command, leaves every piece of the block's state at its reset value
and nothing of the command (R160, R161). -/
def Obligations.ResetInputLeavesResetState : Prop :=
  ∀ (s : State) (rest : List HostAction),
    s.pending = .reset :: rest ∨ (∃ w : Word, s.pending = .resetDuring w :: rest) →
      ∃ t, step s = .next t ∧
        t = { State.reset with cmdIndex := t.cmdIndex, pending := t.pending, reads := t.reads }

/-- What the reset input does to the host's own fields, the model's choice (log 3, 4, 12): it keeps the command index and the
values read, and a CMD write it cuts short counts as issued. -/
def Obligations.ResetInputKeepsHostFields : Prop :=
  ∀ (s : State) (rest : List HostAction),
    (s.pending = .reset :: rest → ∃ t, step s = .next t ∧
      t.cmdIndex = s.cmdIndex ∧ t.pending = rest ∧ t.reads = s.reads) ∧
    (∀ w : Word, s.pending = .resetDuring w :: rest → ∃ t, step s = .next t ∧
      t.cmdIndex = s.cmdIndex + 1 ∧ t.pending = rest ∧ t.reads = s.reads)

/-- ZERO followed by CLRERR leaves the reset state from any state (R162). -/
def Obligations.WipeLeavesResetState : Prop :=
  ∀ s : State, execAll wipeCommands s = .next s.resetBlock ∧
    s.resetBlock = { State.reset with cmdIndex := s.cmdIndex, pending := s.pending, reads := s.reads }

/-! ### Invariants -/

/-- The reset state meets every invariant: the spec's own (R27, R33, R121, R141) and the canonical form of the two RAMs, which is
the model's choice (log 6). -/
def Obligations.ResetMeetsInvariants : Prop := State.reset.Inv

/-- Every step keeps both RAMs in canonical form (the model's own form, log 6). -/
def Obligations.StepKeepsMemoryCanonical : Prop :=
  ∀ s t : State, s.canonical → step s = .next t → t.canonical

/-- Every step keeps the permutation invariant: while VALID is 1, S is a bijection (R33). -/
def Obligations.StepKeepsPermutation : Prop :=
  ∀ s t : State, s.permutationHeld → step s = .next t → t.permutationHeld

/-- Every step keeps this: while VALID is 0, S, I, J and DOUT are all zero (R121). -/
def Obligations.StepKeepsUnscheduledZero : Prop :=
  ∀ s t : State, s.zeroWhenUnscheduled → step s = .next t → t.zeroWhenUnscheduled

/-- Every step keeps KEYLEN at 256 or less and ERR at 3 or less (R27, R141). -/
def Obligations.StepKeepsLegalFields : Prop :=
  ∀ s t : State, s.legalFields → step s = .next t → t.legalFields

/-- After any number of any host interactions from reset: the permutation invariant (R33), the zeros of an unscheduled state
(R121), and legal KEYLEN and ERR (R27, R141). -/
def Obligations.EveryRunMeetsInvariants : Prop :=
  ∀ (actions : List HostAction) (k : Nat) (t : State), core.run k (startRun actions) = .next t →
    t.permutationHeld ∧ t.zeroWhenUnscheduled ∧ t.legalFields

/-! ### Whole-machine rules -/

/-- A step has a next state unless its host access gets a bus error; nothing faults, no command is refused (R50, R54, R140). -/
def Obligations.StepStopsOnlyOnUnsupportedAccess : Prop :=
  ∀ s : State, (∃ t, step s = .next t) ∨
    (step s = .refused .unsupportedAccess ∧ ∃ (o : BitVec 4) (size : Nat) (rest : List HostAction),
      ¬ (size = 4 ∧ 4 ∣ o.toNat) ∧
      (s.pending = .read o size :: rest ∨ ∃ v, s.pending = .write o size v :: rest))

/-- A rejected command writes its code into ERR and nothing else of the block; an accepted one is executed (R13, R140 to R144,
R148). -/
def Obligations.RejectedCommandWritesOnlyErr : Prop :=
  errorCode .invalidKey = 1#4 ∧ errorCode .notScheduled = 2#4 ∧ errorCode .illegalCommand = 3#4 ∧
  ∀ (w : Word) (s : State),
    (∀ e, rejection w s = some e →
      issueCommand w s = .next { s with ERR := errorCode e, cmdIndex := s.cmdIndex + 1 }) ∧
    (rejection w s = none → ∃ i, decode w = .ok i ∧ issueCommand w s = exec i { s with cmdIndex := s.cmdIndex + 1 })

/-- ERR after every command word, the decode check first, and after reset (R30, R147). -/
def Obligations.ErrAfterEveryCommand : Prop :=
  (∀ (w : Word) (s : State), ∃ t, issueCommand w s = .next t ∧
    t.ERR = match decode w with
      | .error _ => 3#4
      | .ok .ksa => if s.KEYLEN = 0#9 then 1#4 else s.ERR
      | .ok (.xform _) => if s.VALID = false then 2#4 else s.ERR
      | .ok .clrerr => 0#4
      | .ok _ => s.ERR) ∧
  (∀ s : State, s.resetBlock.ERR = 0#4) ∧
  (∀ s : State, issueCommand 0x30000001#32 s = .next { s with ERR := 3#4, cmdIndex := s.cmdIndex + 1 }) ∧
  (∀ s : State, issueCommand 0x40000100#32 s = .next { s with ERR := 3#4, cmdIndex := s.cmdIndex + 1 })

/-- VALID becomes 1 only by an accepted KSA, which sets it, and 0 only by ZERO or reset, which clear it (R29). -/
def Obligations.ValidChangesOnlyByKsaZeroReset : Prop :=
  (∀ s t : State, step s = .next t → t.VALID ≠ s.VALID →
    (t.VALID = true ∧ s.KEYLEN ≠ 0#9 ∧ ∃ w rest, s.pending = .write 0x0#4 4 w :: rest ∧ decode w = .ok .ksa) ∨
    (t.VALID = false ∧ ∃ a rest, s.pending = a :: rest ∧
      (a = .reset ∨ (∃ w, a = .resetDuring w) ∨ ∃ w, a = .write 0x0#4 4 w ∧ decode w = .ok .zero))) ∧
  (∀ s : State, s.KEYLEN ≠ 0#9 → ∃ t, exec .ksa s = .next t ∧ t.VALID = true) ∧
  (∀ s : State, s.KEYLEN = 0#9 → ∃ t, exec .ksa s = .next t ∧ t.VALID = s.VALID) ∧
  (∀ s : State, ∃ t, exec .zero s = .next t ∧ t.VALID = false) ∧
  (∀ s : State, s.resetBlock.VALID = false) ∧
  (∀ (s : State) (b : Byte), s.VALID = false → exec (.xform b) s = .next { s with ERR := 2#4 })

/-- DOUT changes only by an accepted XFORM, an SREAD, a CREAD, ZERO or reset; what each writes into it, and
its read (R31). -/
def Obligations.DoutWriters : Prop :=
  (∀ s t : State, step s = .next t → t.DOUT ≠ s.DOUT → ∃ a rest, s.pending = a :: rest ∧
    (a = .reset ∨ (∃ w, a = .resetDuring w) ∨ ∃ w i, a = .write 0x0#4 4 w ∧ decode w = .ok i ∧
      ((∃ b, i = .xform b ∧ s.VALID = true) ∨ (∃ n, i = .sread n) ∨ (∃ c, i = .cread c) ∨ i = .zero))) ∧
  (∀ (s : State) (b : Byte), s.VALID = true →
    ∃ t, exec (.xform b) s = .next t ∧ t.DOUT = b ^^^ t.S.read (t.S.read t.I + t.S.read t.J)) ∧
  (∀ (s : State) (n : Byte), ∃ t, exec (.sread n) s = .next t ∧ t.DOUT = s.S.read n) ∧
  (∀ s : State, (∃ t, exec (.cread .i) s = .next t ∧ t.DOUT = s.I) ∧ ∃ t, exec (.cread .j) s = .next t ∧ t.DOUT = s.J) ∧
  (∀ s : State, ∃ t, exec .zero s = .next t ∧ t.DOUT = 0#8) ∧
  (∀ s : State, s.resetBlock.DOUT = 0#8) ∧
  (∀ (s : State) (rest : List HostAction), s.pending = .read 0x8#4 4 :: rest →
    step s = .next { s with pending := rest, reads := s.reads ++ [s.DOUT.setWidth 32] })

/-- Which commands can change which piece of state (the write column of R22); none changes the host's own fields. -/
def Obligations.CommandsWriteOnlyTheirRegisters : Prop :=
  ∀ (i : Instr) (s t : State), exec i s = .next t →
    (t.S ≠ s.S → i = .ksa ∨ (∃ b, i = .xform b) ∨ i = .zero) ∧
    (t.K ≠ s.K → (∃ a b, i = .keywr a b) ∨ i = .zero) ∧
    (t.KEYLEN ≠ s.KEYLEN → (∃ n, i = .keylen n) ∨ i = .zero) ∧
    (t.I ≠ s.I ∨ t.J ≠ s.J → i = .ksa ∨ (∃ b, i = .xform b) ∨ i = .zero) ∧
    (t.VALID ≠ s.VALID → i = .ksa ∨ i = .zero) ∧
    (t.ERR ≠ s.ERR → (i = .ksa ∧ s.KEYLEN = 0#9) ∨ (∃ b, i = .xform b ∧ s.VALID = false) ∨ i = .clrerr) ∧
    (t.DOUT ≠ s.DOUT → (∃ b, i = .xform b) ∨ (∃ n, i = .sread n) ∨ (∃ c, i = .cread c) ∨ i = .zero) ∧
    t.cmdIndex = s.cmdIndex ∧ t.pending = s.pending ∧ t.reads = s.reads

/-- The command index advances by exactly one for every CMD write, accepted or rejected, and for no other access (R21). -/
def Obligations.CommandIndexCountsCmdWrites : Prop :=
  ∀ (s : State) (rest : List HostAction),
    (∀ w : Word, s.pending = .write 0x0#4 4 w :: rest → ∃ t, step s = .next t ∧ t.cmdIndex = s.cmdIndex + 1) ∧
    (∀ (o : BitVec 4) (size : Nat) (v : Word) (t : State), o ≠ 0x0#4 → s.pending = .write o size v :: rest →
      step s = .next t → t.cmdIndex = s.cmdIndex) ∧
    (∀ (o : BitVec 4) (size : Nat) (t : State), s.pending = .read o size :: rest →
      step s = .next t → t.cmdIndex = s.cmdIndex)

/-- A STATUS or DOUT read that follows a CMD write returns the state the command left (R55, R166). -/
def Obligations.ReadsSeeTheCommandBeforeThem : Prop :=
  ∀ (s : State) (w : Word) (rest : List HostAction),
    (s.pending = .write 0x0#4 4 w :: .read 0x4#4 4 :: rest → ∃ t u, step s = .next t ∧ step t = .next u ∧
      issueCommand w { s with pending := .read 0x4#4 4 :: rest } = .next t ∧ u.reads = s.reads ++ [statusWord t]) ∧
    (s.pending = .write 0x0#4 4 w :: .read 0x8#4 4 :: rest → ∃ t u, step s = .next t ∧ step t = .next u ∧
      issueCommand w { s with pending := .read 0x8#4 4 :: rest } = .next t ∧ u.reads = s.reads ++ [t.DOUT.setWidth 32])

/-- The key RAM reaches the host only through an accepted KSA: two states that differ in K alone stay so, and their hosts read
the same values, over every other step (R26). -/
def Obligations.KeyIsHiddenUntilKsa : Prop :=
  ∀ s s' t : State, s.sameButKey s' → step s = .next t →
    (∀ w rest, s.pending = .write 0x0#4 4 w :: rest → decode w = .ok .ksa → s.KEYLEN = 0#9) →
      ∃ t', step s' = .next t' ∧ t.sameButKey t'

/-- Every command but XFORM is idempotent: issuing it again from the state it leaves changes nothing (R53). -/
def Obligations.CommandsButXformAreIdempotent : Prop :=
  ∀ (i : Instr) (s t : State), (∀ b, i ≠ .xform b) → exec i s = .next t → exec i t = .next t

/-- A step of one instance leaves every other instance as it was, on a platform of any number of them (R155); the platform as a
vector of states is the model's (log 11). -/
def Obligations.InstancesAreIndependent : Prop :=
  ∀ (n : Nat) (p q : Platform n) (k : Fin n), platformStep p k = .next q →
    step p[k] = .next q[k] ∧ ∀ m : Fin n, m ≠ k → q[m] = p[m]

/-! ### The commands, each with its encoding, its effect and frame, and its errors -/

/-- KEYWR writes one byte of the key RAM and changes nothing else; with RSV or A[8] set its word is illegal (R80). -/
def Obligations.KeywrWritesOneKeyByte : Prop :=
  (∀ (idx byte : Byte) (s : State), ∃ t, exec (.keywr idx byte) s = .next t ∧
    (∀ a, t.K.read a = if a = idx then byte else s.K.read a) ∧ t = { s with K := t.K }) ∧
  (∀ w : Word, opField w = 0x1#4 →
    (rsvField w = 0#11 ∧ (aField w)[8] = false → wordSelects w (.keywr (w.extractLsb' 8 8) (w.extractLsb' 0 8))) ∧
    (rsvField w ≠ 0#11 ∨ (aField w)[8] = true → wordIllegal w))

/-- KEYLEN sets the key length register and changes nothing else, and STATUS shows it; with RSV or D set or A above 256 its word
is illegal (R82). -/
def Obligations.KeylenSetsKeyLength : Prop :=
  (∀ (len : BitVec 9) (s : State), ∃ t, exec (.keylen len) s = .next t ∧
    t = { s with KEYLEN := len } ∧ (statusWord t).extractLsb' 16 9 = len) ∧
  (∀ w : Word, opField w = 0x2#4 →
    (rsvField w = 0#11 ∧ dField w = 0#8 ∧ (aField w).toNat ≤ 256 → wordSelects w (.keylen (w.extractLsb' 8 9))) ∧
    (rsvField w ≠ 0#11 ∨ dField w ≠ 0#8 ∨ 256 < (aField w).toNat → wordIllegal w))

/-- KSA leaves in S the permutation of the source's schedule for the key `K[0..KEYLEN-1]`, sets I and J to 0 and VALID to 1, and
changes nothing else; with KEYLEN 0 it is rejected with INVALID_KEY; with any other bit set its word is illegal (R85). -/
def Obligations.KsaRunsTheSourceSchedule : Prop :=
  (∀ s : State, s.KEYLEN ≠ 0#9 → ∃ t, exec .ksa s = .next t ∧
    (∀ a, t.S.read a = sourceSchedule (fun n => s.K.read (BitVec.ofNat 8 n)) s.KEYLEN.toNat a) ∧
    t = { s with S := t.S, I := 0#8, J := 0#8, VALID := true }) ∧
  (∀ s : State, s.KEYLEN = 0#9 → exec .ksa s = .next { s with ERR := 1#4 }) ∧
  (∀ w : Word, opField w = 0x3#4 →
    (rsvField w = 0#11 ∧ aField w = 0#9 ∧ dField w = 0#8 → wordSelects w .ksa) ∧
    (rsvField w ≠ 0#11 ∨ aField w ≠ 0#9 ∨ dField w ≠ 0#8 → wordIllegal w))

/-- XFORM on a scheduled state: I and J advance, the two entries are swapped, DOUT takes the byte xor the keystream byte read
after the swap, nothing else changes; unscheduled it is rejected; with RSV or A set its word is illegal (R100). -/
def Obligations.XformPerformsOneKeystreamStep : Prop :=
  (∀ (byte : Byte) (s : State), s.VALID = true → ∃ t, exec (.xform byte) s = .next t ∧
    t.I = s.I + 1#8 ∧ t.J = s.J + s.S.read (s.I + 1#8) ∧
    t.S.read t.I = s.S.read t.J ∧ t.S.read t.J = s.S.read t.I ∧
    (∀ a, a ≠ t.I → a ≠ t.J → t.S.read a = s.S.read a) ∧
    t.DOUT = byte ^^^ t.S.read (t.S.read t.I + t.S.read t.J) ∧
    t = { s with S := t.S, I := t.I, J := t.J, DOUT := t.DOUT }) ∧
  (∀ (byte : Byte) (s : State), s.VALID = false → exec (.xform byte) s = .next { s with ERR := 2#4 }) ∧
  (∀ w : Word, opField w = 0x4#4 →
    (rsvField w = 0#11 ∧ aField w = 0#9 → wordSelects w (.xform (w.extractLsb' 0 8))) ∧
    (rsvField w ≠ 0#11 ∨ aField w ≠ 0#9 → wordIllegal w))

/-- ZERO writes 0 to every entry of S and K and to I, J, KEYLEN and DOUT, clears VALID and keeps ERR; with any other bit set its
word is illegal (R120). -/
def Obligations.ZeroClearsCipherStateAndKey : Prop :=
  (∀ s : State, ∃ t, exec .zero s = .next t ∧
    (∀ n, t.S.read n = 0#8) ∧ (∀ n, t.K.read n = 0#8) ∧
    t = { s with S := t.S, K := t.K, I := 0#8, J := 0#8, KEYLEN := 0#9, DOUT := 0#8, VALID := false }) ∧
  (∀ w : Word, opField w = 0x7#4 →
    (rsvField w = 0#11 ∧ aField w = 0#9 ∧ dField w = 0#8 → wordSelects w .zero) ∧
    (rsvField w ≠ 0#11 ∨ aField w ≠ 0#9 ∨ dField w ≠ 0#8 → wordIllegal w))

/-- NOP leaves every piece of state as it was; with any other bit set its word is illegal (R122). -/
def Obligations.NopChangesNothing : Prop :=
  (∀ s : State, exec .nop s = .next s) ∧
  (∀ w : Word, opField w = 0x0#4 →
    (rsvField w = 0#11 ∧ aField w = 0#9 ∧ dField w = 0#8 → wordSelects w .nop) ∧
    (rsvField w ≠ 0#11 ∨ aField w ≠ 0#9 ∨ dField w ≠ 0#8 → wordIllegal w))

/-- SREAD copies one entry of S to DOUT, scheduled or not, and changes nothing else; with RSV, A[8] or D set its word is illegal
(R124). -/
def Obligations.SreadCopiesOneEntry : Prop :=
  (∀ (idx : Byte) (s : State), exec (.sread idx) s = .next { s with DOUT := s.S.read idx }) ∧
  (∀ w : Word, opField w = 0x5#4 →
    (rsvField w = 0#11 ∧ (aField w)[8] = false ∧ dField w = 0#8 → wordSelects w (.sread (w.extractLsb' 8 8))) ∧
    (rsvField w ≠ 0#11 ∨ (aField w)[8] = true ∨ dField w ≠ 0#8 → wordIllegal w))

/-- CREAD copies I (select 0) or J (select 1) to DOUT, scheduled or not, and changes nothing else; with RSV or D set or A above 1
its word is illegal (R126). -/
def Obligations.CreadCopiesOneCursor : Prop :=
  (∀ s : State, exec (.cread .i) s = .next { s with DOUT := s.I }) ∧
  (∀ s : State, exec (.cread .j) s = .next { s with DOUT := s.J }) ∧
  (∀ w : Word, opField w = 0x6#4 →
    (rsvField w = 0#11 ∧ aField w = 0#9 ∧ dField w = 0#8 → wordSelects w (.cread .i)) ∧
    (rsvField w = 0#11 ∧ aField w = 1#9 ∧ dField w = 0#8 → wordSelects w (.cread .j)) ∧
    (rsvField w ≠ 0#11 ∨ 1 < (aField w).toNat ∨ dField w ≠ 0#8 → wordIllegal w))

/-- CLRERR writes 0 to ERR and changes nothing else; with any other bit set its word is illegal and ERR becomes 3 (R128). -/
def Obligations.ClrerrClearsErr : Prop :=
  (∀ s : State, exec .clrerr s = .next { s with ERR := 0#4 }) ∧
  (∀ w : Word, opField w = 0x8#4 →
    (rsvField w = 0#11 ∧ aField w = 0#9 ∧ dField w = 0#8 → wordSelects w .clrerr) ∧
    (rsvField w ≠ 0#11 ∨ aField w ≠ 0#9 ∨ dField w ≠ 0#8 → wordIllegal w))

/-! ### Laws of the key schedule and the keystream -/

/-- KEYWR commands to different positions commute (R81), and leave equal data, where K is in the model's canonical form (log 6). -/
def Obligations.KeywrToDifferentPositionsCommutes : Prop :=
  ∀ (a b x y : Byte) (s : State), a ≠ b → s.K.wf = true →
    ∃ t, execAll [.keywr a x, .keywr b y] s = .next t ∧ execAll [.keywr b y, .keywr a x] s = .next t ∧
      t.K.read a = x ∧ t.K.read b = y

/-- The result of an accepted KSA depends only on KEYLEN and `K[0..KEYLEN-1]` (R88). -/
def Obligations.KsaDependsOnlyOnTheKey : Prop :=
  ∀ s s' : State, sameKey s s' → ∃ t t', exec .ksa s = .next t ∧ exec .ksa s' = .next t' ∧
    t.S = t'.S ∧ t.I = t'.I ∧ t.J = t'.J ∧ t.VALID = t'.VALID

/-- Two keys that agree on the 256 bytes `key[n mod L]` schedule the same state (the first sentence of R89). -/
def Obligations.PeriodicKeysScheduleTheSameState : Prop :=
  ∀ s s' : State, s.KEYLEN ≠ 0#9 → s'.KEYLEN ≠ 0#9 →
    (∀ n, n < 256 → s.K.read (BitVec.ofNat 8 (n % s.KEYLEN.toNat)) = s'.K.read (BitVec.ofNat 8 (n % s'.KEYLEN.toNat))) →
    ∃ t t', exec .ksa s = .next t ∧ exec .ksa s' = .next t' ∧
      t.S = t'.S ∧ t.I = t'.I ∧ t.J = t'.J ∧ t.VALID = t'.VALID

/-- A host that loads the first 256 bytes of a nonempty key of any length with `setkey` gets the source's schedule of the whole
key, from every state; ERR and DOUT are as before (R74, R87). -/
def Obligations.SetkeySchedulesAnyKey : Prop :=
  ∀ (key : List Byte) (s : State), key ≠ [] →
    ∃ t, execAll (setkeyCommands (key.take 256)) s = .next t ∧
      (∀ a, t.S.read a = sourceSchedule (fun n => key.getD n 0#8) key.length a) ∧
      t.KEYLEN.toNat = min key.length 256 ∧ t.I = 0#8 ∧ t.J = 0#8 ∧ t.VALID = true ∧ t.ERR = s.ERR ∧ t.DOUT = s.DOUT

/-- After an accepted KSA, S is a permutation of 0..255 and I and J are 0, whatever S was (R90). -/
def Obligations.KsaYieldsPermutation : Prop :=
  ∀ s : State, s.KEYLEN ≠ 0#9 → ∃ t, exec .ksa s = .next t ∧ Function.Bijective t.S.read ∧ t.I = 0#8 ∧ t.J = 0#8

/-- XFORM changes S by one swap of two entries and keeps a permutation a permutation (R108). -/
def Obligations.XformKeepsPermutation : Prop :=
  ∀ (byte : Byte) (s : State), s.VALID = true → ∃ t, exec (.xform byte) s = .next t ∧
    (∃ a b, ∀ n, t.S.read n = s.S.read (Equiv.swap a b n)) ∧
    (Function.Bijective s.S.read → Function.Bijective t.S.read)

/-- The keystream depends only on the key and the position: two states scheduled from the same key give outputs that are the
data xor one and the same keystream, which the data do not enter (R102). -/
def Obligations.KeystreamDependsOnlyOnKeyAndPosition : Prop :=
  ∀ (s s' : State), sameKey s s' → ∃ t t', exec .ksa s = .next t ∧ exec .ksa s' = .next t' ∧
    ∀ data : List Byte,
      (transform data t).1 = List.zipWith (· ^^^ ·) data (transform (List.replicate data.length 0#8) t').1

/-- Round trip: transforming a buffer with a freshly scheduled state and the result with another freshly scheduled state of the
same key gives the buffer back (R105). -/
def Obligations.FreshStatesRoundTrip : Prop :=
  ∀ (s s' : State), sameKey s s' → ∃ t t', exec .ksa s = .next t ∧ exec .ksa s' = .next t' ∧
    ∀ buffer : List Byte, (transform (transform buffer t).1 t').1 = buffer

/-- Streaming equivalence: a run of XFORMs with any other words between them, accepted or rejected, but no accepted KSA and no
accepted ZERO, gives the bytes of one uninterrupted transform; and a buffer may be split anywhere (R107). -/
def Obligations.StreamingEquivalence : Prop :=
  (∀ (ws : List Word) (s : State), s.VALID = true → uninterrupted ws s →
    xformOutputs ws s = (transform (xformBytes ws) s).1 ∧
    (afterWords ws s).S = (transform (xformBytes ws) s).2.S ∧ (afterWords ws s).I = (transform (xformBytes ws) s).2.I ∧
    (afterWords ws s).J = (transform (xformBytes ws) s).2.J) ∧
  (∀ (b₁ b₂ : List Byte) (s : State), s.VALID = true →
    (transform (b₁ ++ b₂) s).1 = (transform b₁ s).1 ++ (transform b₂ (transform b₁ s).2).1)

/-- After any words with no accepted ZERO or KSA among them since an accepted KSA, I is the number of XFORMs modulo 256 (R109). -/
def Obligations.CursorCountsXforms : Prop :=
  ∀ (s : State) (ws : List Word), s.KEYLEN ≠ 0#9 → ∃ t, exec .ksa s = .next t ∧
    (uninterrupted ws t → (afterWords ws t).I.toNat = (xformBytes ws).length % 256)

/-- `xbuf` is the source's transform: the same state after, one output byte per input byte, and an empty buffer changes nothing
(R103, R104). -/
def Obligations.XbufIsTransform : Prop :=
  (∀ (buffer : List Byte) (s : State), s.VALID = true →
    execAll (xbufCommands buffer) s = .next (transform buffer s).2 ∧ (transform buffer s).1.length = buffer.length) ∧
  (∀ s : State, execAll (xbufCommands []) s = .next s ∧ transform [] s = ([], s))

/-! ### Windows of several cores -/

/-- An access that starts in the window of core `k` is performed by core `k`, an access that starts in no window changes no core (so
too where it reaches into one from below), a reset input is its core's own, and every core that an interaction does not reach stays as it was (R45, R155). The numbering of the cores, the
platform as a vector of states, and that an access goes by its first address alone and, where that is in no window, leaves the platform as
it was are the model's choice (log 9, 11). -/
def Obligations.AccessesReachTheirOwnCore : Prop :=
  ∀ (n : Nat) (p : Platform n),
    (∀ (k : Fin n) (o : BitVec 4) (size : Nat) (v : Word),
      platformPerform (.read (Config.rc4Base k + o.toNat) size) p = p.answer k (perform (.read o size) p[k]) ∧
      platformPerform (.write (Config.rc4Base k + o.toNat) size v) p = p.answer k (perform (.write o size v) p[k])) ∧
    (∀ (addr size : Nat) (v : Word), (∀ k : Fin n, windowOffset k addr = none) →
      platformPerform (.read addr size) p = .next p ∧ platformPerform (.write addr size v) p = .next p) ∧
    (∀ (k : Fin n) (w : Word),
      platformPerform (.reset k) p = p.answer k (perform .reset p[k]) ∧
      platformPerform (.resetDuring k w) p = p.answer k (perform (.resetDuring w) p[k])) ∧
    (∀ (k : Fin n) (r : Result) (q : Platform n), p.answer k r = .next q →
      r = .next q[k] ∧ ∀ m : Fin n, m ≠ k → q[m] = p[m])
end

