-- ==== Sys2Proof/Laws/Decode.lean ====
section
/-! SUPPORT. The fields of an assembled word, and a word from its fields. -/

namespace Sys2Proof

@[simp] theorem opField_assemble (op : BitVec 4) (a : BitVec 9) (d : Byte) : opField (assemble op a d) = op := by
  ext i hi
  simp [opField, assemble, show 28 + i < 32 by omega, show ¬ 28 + i < 8 by omega, BitVec.getLsbD_eq_getElem hi,
    BitVec.getLsbD_of_ge a (28 + i - 8) (by omega), BitVec.getLsbD_of_ge d (28 + i) (by omega)]

@[simp] theorem rsvField_assemble (op : BitVec 4) (a : BitVec 9) (d : Byte) : rsvField (assemble op a d) = 0#11 := by
  ext i hi
  simp [rsvField, assemble, show 17 + i < 28 by omega, show ¬ 17 + i < 8 by omega,
    BitVec.getLsbD_of_ge a (17 + i - 8) (by omega), BitVec.getLsbD_of_ge d (17 + i) (by omega)]

@[simp] theorem aField_assemble (op : BitVec 4) (a : BitVec 9) (d : Byte) : aField (assemble op a d) = a := by
  ext i hi
  simp [aField, assemble, show 8 + i < 28 by omega, show 8 + i < 32 by omega, BitVec.getLsbD_eq_getElem hi]

@[simp] theorem dField_assemble (op : BitVec 4) (a : BitVec 9) (d : Byte) : dField (assemble op a d) = d := by
  ext i hi
  simp [dField, assemble, show i < 28 by omega, hi, show i < 32 by omega]

/-- A word with RSV = 0 is its three other fields assembled (R60). -/
theorem assemble_fields (w : Word) (h : rsvField w = 0#11) : assemble (opField w) (aField w) (dField w) = w := by
  have hr : ∀ i, 17 ≤ i → i < 28 → w.getLsbD i = false := by
    intro i h1 h2
    have := congrArg (fun v => v.getLsbD (i - 17)) h
    simpa [rsvField, show i - 17 < 11 by omega, show 17 + (i - 17) = i by omega] using this
  apply BitVec.eq_of_getLsbD_eq
  intro i hi
  rcases Nat.lt_or_ge i 8 with h1 | h1
  · simp [opField, assemble, aField, dField, h1, hi, show i < 28 by omega]
  rcases Nat.lt_or_ge i 17 with h2 | h2
  · simp [opField, assemble, aField, dField, hi, show ¬ i < 8 by omega, show i - 8 < 9 by omega, show i < 28 by omega,
      show 8 + (i - 8) = i by omega]
  rcases Nat.lt_or_ge i 28 with h3 | h3
  · rw [hr i h2 h3]
    simp [opField, assemble, aField, dField, hi, h3, show ¬ i < 8 by omega, show ¬ i - 8 < 9 by omega]
  · simp [opField, assemble, aField, dField, hi, show ¬ i < 28 by omega, show ¬ i < 8 by omega, show ¬ i - 8 < 9 by omega,
      show 28 + (i - 28) = i by omega, show i - 28 < 4 by omega]

@[simp] theorem indexOf_indexField (idx : Byte) : indexOf (indexField idx) = idx := by
  ext i hi
  simp [indexOf, indexField, BitVec.getLsbD_eq_getElem hi, show i < 9 by omega]

@[simp] theorem indexField_bit8 (idx : Byte) : (indexField idx)[8] = false := by
  simp [indexField]

/-- A 9-bit operand with A[8] = 0 is its low byte as an index (R63). -/
theorem indexField_indexOf (a : BitVec 9) (h : a[8] = false) : indexField (indexOf a) = a := by
  apply BitVec.eq_of_getLsbD_eq
  intro i hi
  rcases Nat.lt_or_ge i 8 with h1 | h1
  · simp [indexField, indexOf, h1, hi]
  · obtain rfl : i = 8 := by omega
    simpa using h.symm

@[simp] theorem cursorOf_cursorField (sel : CursorSel) : cursorOf (cursorField sel) = sel := by
  cases sel <;> decide

theorem cursorField_le (sel : CursorSel) : (cursorField sel).toNat ≤ 1 := by
  cases sel <;> decide

/-- A select operand of 0 or 1 is its cursor's field (R63). -/
theorem cursorField_cursorOf (a : BitVec 9) (h : a.toNat ≤ 1) : cursorField (cursorOf a) = a := by
  have ha : a = 0#9 ∨ a = 1#9 := by
    rcases Nat.le_one_iff_eq_zero_or_eq_one.mp h with h | h
    · exact .inl (BitVec.eq_of_toNat_eq (by simpa using h))
    · exact .inr (BitVec.eq_of_toNat_eq (by simpa using h))
  rcases ha with rfl | rfl <;> decide

/-- A word with RSV set is illegal (R62). -/
theorem decode_reserved {w : Word} (h : rsvField w ≠ 0#11) : decode w = .error .reservedField := if_pos h

theorem decode_op0 {w : Word} (hr : rsvField w = 0#11) (h : opField w = 0x0#4) :
    decode w = if aField w = 0#9 ∧ dField w = 0#8 then .ok .nop else .error .unusedField := by
  unfold decode; rw [if_neg (by simp [hr]), h]; rfl

theorem decode_op1 {w : Word} (hr : rsvField w = 0#11) (h : opField w = 0x1#4) :
    decode w = if (aField w)[8] = false then .ok (.keywr (indexOf (aField w)) (dField w)) else .error .operandRange := by
  unfold decode; rw [if_neg (by simp [hr]), h]; rfl

theorem decode_op2 {w : Word} (hr : rsvField w = 0#11) (h : opField w = 0x2#4) :
    decode w = if dField w ≠ 0#8 then .error .unusedField
      else if (aField w).toNat ≤ 256 then .ok (.keylen (aField w)) else .error .operandRange := by
  unfold decode; rw [if_neg (by simp [hr]), h]; rfl

theorem decode_op3 {w : Word} (hr : rsvField w = 0#11) (h : opField w = 0x3#4) :
    decode w = if aField w = 0#9 ∧ dField w = 0#8 then .ok .ksa else .error .unusedField := by
  unfold decode; rw [if_neg (by simp [hr]), h]; rfl

theorem decode_op4 {w : Word} (hr : rsvField w = 0#11) (h : opField w = 0x4#4) :
    decode w = if aField w = 0#9 then .ok (.xform (dField w)) else .error .unusedField := by
  unfold decode; rw [if_neg (by simp [hr]), h]; rfl

theorem decode_op5 {w : Word} (hr : rsvField w = 0#11) (h : opField w = 0x5#4) :
    decode w = if dField w ≠ 0#8 then .error .unusedField
      else if (aField w)[8] = false then .ok (.sread (indexOf (aField w))) else .error .operandRange := by
  unfold decode; rw [if_neg (by simp [hr]), h]; rfl

theorem decode_op6 {w : Word} (hr : rsvField w = 0#11) (h : opField w = 0x6#4) :
    decode w = if dField w ≠ 0#8 then .error .unusedField
      else if (aField w).toNat ≤ 1 then .ok (.cread (cursorOf (aField w))) else .error .operandRange := by
  unfold decode; rw [if_neg (by simp [hr]), h]; rfl

theorem decode_op7 {w : Word} (hr : rsvField w = 0#11) (h : opField w = 0x7#4) :
    decode w = if aField w = 0#9 ∧ dField w = 0#8 then .ok .zero else .error .unusedField := by
  unfold decode; rw [if_neg (by simp [hr]), h]; rfl

theorem decode_op8 {w : Word} (hr : rsvField w = 0#11) (h : opField w = 0x8#4) :
    decode w = if aField w = 0#9 ∧ dField w = 0#8 then .ok .clrerr else .error .unusedField := by
  unfold decode; rw [if_neg (by simp [hr]), h]; rfl

/-- The opcode is one of the nine assigned ones or reserved (R61). -/
theorem opField_cases (w : Word) :
    opField w = 0x0#4 ∨ opField w = 0x1#4 ∨ opField w = 0x2#4 ∨ opField w = 0x3#4 ∨ opField w = 0x4#4 ∨ opField w = 0x5#4 ∨
    opField w = 0x6#4 ∨ opField w = 0x7#4 ∨ opField w = 0x8#4 ∨ 9 ≤ (opField w).toNat := by
  have key : ∀ x : BitVec 4, x = 0x0#4 ∨ x = 0x1#4 ∨ x = 0x2#4 ∨ x = 0x3#4 ∨ x = 0x4#4 ∨ x = 0x5#4 ∨ x = 0x6#4 ∨ x = 0x7#4 ∨
      x = 0x8#4 ∨ 9 ≤ x.toNat := by decide
  exact key _

/-- A word with a reserved opcode is illegal whatever its other bits (R68). -/
theorem decode_reservedOpcode {w : Word} (h : 9 ≤ (opField w).toNat) : ∃ e, decode w = .error e := by
  have key : ∀ x : BitVec 4, 9 ≤ x.toNat → x ≠ 0x0#4 ∧ x ≠ 0x1#4 ∧ x ≠ 0x2#4 ∧ x ≠ 0x3#4 ∧ x ≠ 0x4#4 ∧ x ≠ 0x5#4 ∧ x ≠ 0x6#4 ∧
      x ≠ 0x7#4 ∧ x ≠ 0x8#4 := by decide
  obtain ⟨h0, h1, h2, h3, h4, h5, h6, h7, h8⟩ := key _ h
  unfold decode
  split
  · exact ⟨_, rfl⟩
  · split <;> first | exact ⟨_, rfl⟩ | (rename_i hx; exact absurd hx (by assumption))

/-- A[7:0] is bits 15:8 of the word (R60, R63). -/
theorem indexOf_aField (w : Word) : indexOf (aField w) = w.extractLsb' 8 8 := by
  ext i hi
  simp [indexOf, aField, show i < 9 by omega]

end Sys2Proof
end

