-- ==== Sys2Proof/Laws/Memory.lean ====
section
/-! SUPPORT. What the RAM operations do, entry by entry, that they keep the canonical form, and that canonical memories with
equal entries are equal. -/

namespace Sys2Proof.Machine

theorem Memory.lookup_without (m : Memory) (a b : Nat) :
    Memory.lookup (Memory.without m a) b = if b = a then Memory.unlisted else Memory.lookup m b := by
  induction m with
  | nil => simp [Memory.without, Memory.lookup]
  | cons c m ih =>
    obtain ⟨k, v⟩ := c
    simp only [Memory.without, Memory.lookup]
    split_ifs <;> simp_all [Memory.lookup]

theorem Memory.lookup_place (m : Memory) (a : Nat) (v : Byte) (b : Nat) (h : Memory.lookup m a = Memory.unlisted)
    (hm : ∀ c ∈ m, c.1 ≠ a) :
    Memory.lookup (Memory.place m a v) b = if b = a then v else Memory.lookup m b := by
  induction m with
  | nil => simp [Memory.place, Memory.lookup, eq_comm]
  | cons c m ih =>
    obtain ⟨k, w⟩ := c
    have hk : k ≠ a := hm (k, w) (by simp)
    have ih := ih (by simpa [Memory.lookup, hk] using h) (fun c hc => hm c (by simp [hc]))
    simp only [Memory.place, Memory.lookup]
    by_cases hb : b = a
    · subst hb
      split_ifs <;> simp_all [Memory.lookup]
    · split_ifs <;> simp_all [Memory.lookup, eq_comm]

theorem Memory.without_ne (m : Memory) (a : Nat) : ∀ c ∈ Memory.without m a, c.1 ≠ a := by
  induction m with
  | nil => simp [Memory.without]
  | cons c m ih =>
    obtain ⟨k, v⟩ := c
    simp only [Memory.without]
    split_ifs with h
    · exact ih
    · simpa [h] using ih

@[simp] theorem Memory.read_nil (a : Byte) : Memory.read [] a = 0#8 := rfl

/-- An entry after a write: the value written, or what it held (R12). -/
theorem Memory.read_write (m : Memory) (a v b : Byte) : (m.write a v).read b = if b = a then v else m.read b := by
  unfold Memory.write Memory.read
  split_ifs with hv hb hb
  · simp [Memory.lookup_without, hv, hb]
  · simp [Memory.lookup_without, BitVec.toNat_inj, hb]
  all_goals
    rw [Memory.lookup_place _ _ _ _ (by simp [Memory.lookup_without]) (Memory.without_ne m a.toNat)]
    simp [Memory.lookup_without, BitVec.toNat_inj, hb]

/-- An entry after a swap (R12). -/
theorem Memory.read_swap (m : Memory) (a b c : Byte) :
    (m.swap a b).read c = if c = a then m.read b else if c = b then m.read a else m.read c := by
  simp only [Memory.swap, Memory.read_write]
  split_ifs <;> simp_all

/-- A swap is a reordering of the entries. -/
theorem Memory.read_swap_eq (m : Memory) (a b c : Byte) : (m.swap a b).read c = m.read (Equiv.swap a b c) := by
  rw [Memory.read_swap, Equiv.swap_apply_def]
  split_ifs <;> rfl

/-- A swap keeps a permutation a permutation (R108). -/
theorem Memory.swap_bijective {m : Memory} (h : Function.Bijective m.read) (a b : Byte) :
    Function.Bijective (m.swap a b).read := by
  have : (m.swap a b).read = m.read ∘ Equiv.swap a b := funext fun c => Memory.read_swap_eq m a b c
  rw [this]
  exact h.comp (Equiv.swap a b).bijective

theorem Memory.wfFrom_mono {m : Memory} {lo lo' : Nat} (h : lo' ≤ lo) (hm : Memory.wfFrom lo m = true) :
    Memory.wfFrom lo' m = true := by
  cases m with
  | nil => rfl
  | cons c m =>
    simp only [Memory.wfFrom, Bool.and_eq_true, decide_eq_true_eq] at hm ⊢
    exact ⟨⟨⟨by omega, hm.1.1.2⟩, hm.1.2⟩, hm.2⟩

theorem Memory.without_wfFrom {m : Memory} {lo : Nat} (a : Nat) (h : Memory.wfFrom lo m = true) :
    Memory.wfFrom lo (Memory.without m a) = true := by
  induction m generalizing lo with
  | nil => rfl
  | cons c m ih =>
    obtain ⟨k, v⟩ := c
    simp only [Memory.wfFrom, Bool.and_eq_true, decide_eq_true_eq] at h
    simp only [Memory.without]
    split_ifs with hk
    · exact Memory.wfFrom_mono (by omega) (ih h.2)
    · simp only [Memory.wfFrom, Bool.and_eq_true, decide_eq_true_eq]
      exact ⟨h.1, ih h.2⟩

theorem Memory.place_wfFrom {m : Memory} {lo a : Nat} {v : Byte} (h : Memory.wfFrom lo m = true) (hlo : lo ≤ a)
    (ha : a < 256) (hv : v ≠ Memory.unlisted) (hm : ∀ c ∈ m, c.1 ≠ a) :
    Memory.wfFrom lo (Memory.place m a v) = true := by
  induction m generalizing lo with
  | nil => simp [Memory.place, Memory.wfFrom, hlo, ha, hv]
  | cons c m ih =>
    obtain ⟨k, w⟩ := c
    simp only [Memory.wfFrom, Bool.and_eq_true, decide_eq_true_eq] at h
    have hk : k ≠ a := hm (k, w) (by simp)
    simp only [Memory.place]
    split_ifs with hak
    · simp only [Memory.wfFrom, Bool.and_eq_true, decide_eq_true_eq]
      exact ⟨⟨⟨hlo, ha⟩, hv⟩, ⟨⟨⟨by omega, h.1.1.2⟩, h.1.2⟩, h.2⟩⟩
    · simp only [Memory.wfFrom, Bool.and_eq_true, decide_eq_true_eq]
      exact ⟨h.1, ih h.2 (by omega) (fun c hc => hm c (by simp [hc]))⟩

/-- A write keeps the canonical form. -/
theorem Memory.write_wf {m : Memory} (h : m.wf = true) (a v : Byte) : (m.write a v).wf = true := by
  unfold Memory.write Memory.wf at *
  split_ifs with hv
  · exact Memory.without_wfFrom _ h
  · exact Memory.place_wfFrom (Memory.without_wfFrom _ h) (by omega) a.isLt hv (Memory.without_ne m a.toNat)

/-- A swap keeps the canonical form. -/
theorem Memory.swap_wf {m : Memory} (h : m.wf = true) (a b : Byte) : (m.swap a b).wf = true :=
  Memory.write_wf (Memory.write_wf h _ _) _ _

/-- The empty memory, all zeros, is in canonical form. -/
theorem Memory.zeroed_wf : Memory.zeroed.wf = true := rfl

theorem Memory.lookup_eq_of_lt {m : Memory} {lo a : Nat} (h : Memory.wfFrom lo m = true) (ha : a < lo) :
    Memory.lookup m a = Memory.unlisted := by
  induction m generalizing lo with
  | nil => rfl
  | cons c m ih =>
    obtain ⟨k, v⟩ := c
    simp only [Memory.wfFrom, Bool.and_eq_true, decide_eq_true_eq] at h
    simp only [Memory.lookup, show ¬ k = a by omega, if_false]
    exact ih h.2 (by omega)

theorem Memory.eq_of_lookup {m n : Memory} {lo : Nat} (hm : Memory.wfFrom lo m = true) (hn : Memory.wfFrom lo n = true)
    (h : ∀ a, a < 256 → Memory.lookup m a = Memory.lookup n a) : m = n := by
  induction m generalizing lo n with
  | nil =>
    cases n with
    | nil => rfl
    | cons c n =>
      obtain ⟨k, v⟩ := c
      simp only [Memory.wfFrom, Bool.and_eq_true, decide_eq_true_eq] at hn
      exact absurd (by simpa [Memory.lookup] using (h k (by omega)).symm) hn.1.2
  | cons c m ih =>
    obtain ⟨k, v⟩ := c
    have hm' := hm
    simp only [Memory.wfFrom, Bool.and_eq_true, decide_eq_true_eq] at hm
    cases n with
    | nil => exact absurd (by simpa [Memory.lookup] using h k (by omega)) hm.1.2
    | cons d n =>
      obtain ⟨l, w⟩ := d
      have hn' := hn
      simp only [Memory.wfFrom, Bool.and_eq_true, decide_eq_true_eq] at hn
      have hkl : k = l := by
        rcases Nat.lt_trichotomy k l with hlt | heq | hgt
        · have := h k (by omega)
          rw [show Memory.lookup ((k, v) :: m) k = v by simp [Memory.lookup]] at this
          simp only [Memory.lookup, show ¬ l = k by omega, if_false] at this
          exact absurd (this.trans (Memory.lookup_eq_of_lt hn.2 (by omega))) hm.1.2
        · exact heq
        · have := h l (by omega)
          rw [show Memory.lookup ((l, w) :: n) l = w by simp [Memory.lookup]] at this
          simp only [Memory.lookup, show ¬ k = l by omega, if_false] at this
          exact absurd (this.symm.trans (Memory.lookup_eq_of_lt hm.2 (by omega))) hn.1.2
      subst hkl
      have hvw : v = w := by simpa [Memory.lookup] using h k (by omega)
      subst hvw
      rw [ih hm.2 hn.2]
      intro a ha
      by_cases hka : k = a
      · subst hka
        rw [Memory.lookup_eq_of_lt hm.2 (by omega), Memory.lookup_eq_of_lt hn.2 (by omega)]
      · simpa [Memory.lookup, hka] using h a ha

/-- Canonical memories with the same entries are the same data. -/
theorem Memory.ext_of_read {m n : Memory} (hm : m.wf = true) (hn : n.wf = true) (h : ∀ a : Byte, m.read a = n.read a) :
    m = n :=
  Memory.eq_of_lookup hm hn fun a ha => by
    have := h (BitVec.ofNat 8 a)
    simpa [Memory.read, Nat.mod_eq_of_lt ha] using this

theorem Memory.foldl_identity_read (ns : List Nat) (m : Memory) (a : Byte) :
    (ns.foldl (fun m n => Memory.write m (BitVec.ofNat 8 n) (BitVec.ofNat 8 n)) m).read a
      = if ∃ n ∈ ns, BitVec.ofNat 8 n = a then a else m.read a := by
  induction ns generalizing m with
  | nil => simp
  | cons n ns ih =>
    rw [List.foldl_cons, ih, Memory.read_write]
    by_cases h : ∃ k ∈ ns, BitVec.ofNat 8 k = a
    · obtain ⟨k, hk, rfl⟩ := h
      rw [if_pos ⟨k, hk, rfl⟩, if_pos ⟨k, by simp [hk], rfl⟩]
    · by_cases hn : BitVec.ofNat 8 n = a
      · subst hn
        simp
      · rw [if_neg h, if_neg (fun e => hn e.symm), if_neg]
        rintro ⟨k, hk, e⟩
        rcases List.mem_cons.mp hk with rfl | hk
        · exact hn e
        · exact h ⟨k, hk, e⟩

/-- The identity permutation: entry `n` holds `n` (R85). -/
@[simp] theorem Memory.read_identity (a : Byte) : Memory.identity.read a = a := by
  unfold Memory.identity byteIndexes
  rw [Memory.foldl_identity_read, if_pos]
  exact ⟨a.toNat, List.mem_range.mpr a.isLt, by simp⟩

theorem Memory.foldl_wf {α : Type} (f : Memory → α → Memory) (hf : ∀ m x, m.wf = true → (f m x).wf = true) (xs : List α)
    (m : Memory) (h : m.wf = true) : (xs.foldl f m).wf = true := by
  induction xs generalizing m with
  | nil => exact h
  | cons x xs ih => exact ih _ (hf m x h)

/-- The identity permutation is in canonical form. -/
theorem Memory.identity_wf : Memory.identity.wf = true := by
  unfold Memory.identity
  exact Memory.foldl_wf _ (fun _ _ h => Memory.write_wf h _ _) _ _ rfl

end Sys2Proof.Machine
end

