-- ==== Sys2Proof/Laws/State.lean ====
section
/-! SUPPORT. Each field of the state after each update, so that no later proof unfolds a record update. -/

namespace Sys2Proof.Machine

variable (s : State)

@[simp] theorem State.setDout_S (v : Byte) : (s.setDout v).S = s.S := rfl
@[simp] theorem State.setDout_K (v : Byte) : (s.setDout v).K = s.K := rfl
@[simp] theorem State.setDout_KEYLEN (v : Byte) : (s.setDout v).KEYLEN = s.KEYLEN := rfl
@[simp] theorem State.setDout_I (v : Byte) : (s.setDout v).I = s.I := rfl
@[simp] theorem State.setDout_J (v : Byte) : (s.setDout v).J = s.J := rfl
@[simp] theorem State.setDout_VALID (v : Byte) : (s.setDout v).VALID = s.VALID := rfl
@[simp] theorem State.setDout_ERR (v : Byte) : (s.setDout v).ERR = s.ERR := rfl
@[simp] theorem State.setDout_DOUT (v : Byte) : (s.setDout v).DOUT = v := rfl
@[simp] theorem State.setDout_cmdIndex (v : Byte) : (s.setDout v).cmdIndex = s.cmdIndex := rfl
@[simp] theorem State.setDout_pending (v : Byte) : (s.setDout v).pending = s.pending := rfl
@[simp] theorem State.setDout_reads (v : Byte) : (s.setDout v).reads = s.reads := rfl

@[simp] theorem State.setKeyByte_S (a v : Byte) : (s.setKeyByte a v).S = s.S := rfl
@[simp] theorem State.setKeyByte_K (a v : Byte) : (s.setKeyByte a v).K = s.K.write a v := rfl
@[simp] theorem State.setKeyByte_KEYLEN (a v : Byte) : (s.setKeyByte a v).KEYLEN = s.KEYLEN := rfl
@[simp] theorem State.setKeyByte_I (a v : Byte) : (s.setKeyByte a v).I = s.I := rfl
@[simp] theorem State.setKeyByte_J (a v : Byte) : (s.setKeyByte a v).J = s.J := rfl
@[simp] theorem State.setKeyByte_VALID (a v : Byte) : (s.setKeyByte a v).VALID = s.VALID := rfl
@[simp] theorem State.setKeyByte_ERR (a v : Byte) : (s.setKeyByte a v).ERR = s.ERR := rfl
@[simp] theorem State.setKeyByte_DOUT (a v : Byte) : (s.setKeyByte a v).DOUT = s.DOUT := rfl
@[simp] theorem State.setKeyByte_cmdIndex (a v : Byte) : (s.setKeyByte a v).cmdIndex = s.cmdIndex := rfl
@[simp] theorem State.setKeyByte_pending (a v : Byte) : (s.setKeyByte a v).pending = s.pending := rfl
@[simp] theorem State.setKeyByte_reads (a v : Byte) : (s.setKeyByte a v).reads = s.reads := rfl

@[simp] theorem clearError_S : (clearError s).S = s.S := rfl
@[simp] theorem clearError_K : (clearError s).K = s.K := rfl
@[simp] theorem clearError_KEYLEN : (clearError s).KEYLEN = s.KEYLEN := rfl
@[simp] theorem clearError_I : (clearError s).I = s.I := rfl
@[simp] theorem clearError_J : (clearError s).J = s.J := rfl
@[simp] theorem clearError_VALID : (clearError s).VALID = s.VALID := rfl
@[simp] theorem clearError_ERR : (clearError s).ERR = 0#4 := rfl
@[simp] theorem clearError_DOUT : (clearError s).DOUT = s.DOUT := rfl
@[simp] theorem clearError_cmdIndex : (clearError s).cmdIndex = s.cmdIndex := rfl
@[simp] theorem clearError_pending : (clearError s).pending = s.pending := rfl
@[simp] theorem clearError_reads : (clearError s).reads = s.reads := rfl

@[simp] theorem State.countCommand_S : (s.countCommand).S = s.S := rfl
@[simp] theorem State.countCommand_K : (s.countCommand).K = s.K := rfl
@[simp] theorem State.countCommand_KEYLEN : (s.countCommand).KEYLEN = s.KEYLEN := rfl
@[simp] theorem State.countCommand_I : (s.countCommand).I = s.I := rfl
@[simp] theorem State.countCommand_J : (s.countCommand).J = s.J := rfl
@[simp] theorem State.countCommand_VALID : (s.countCommand).VALID = s.VALID := rfl
@[simp] theorem State.countCommand_ERR : (s.countCommand).ERR = s.ERR := rfl
@[simp] theorem State.countCommand_DOUT : (s.countCommand).DOUT = s.DOUT := rfl
@[simp] theorem State.countCommand_cmdIndex : (s.countCommand).cmdIndex = s.cmdIndex + 1 := rfl
@[simp] theorem State.countCommand_pending : (s.countCommand).pending = s.pending := rfl
@[simp] theorem State.countCommand_reads : (s.countCommand).reads = s.reads := rfl

@[simp] theorem State.recordRead_S (v : Word) : (s.recordRead v).S = s.S := rfl
@[simp] theorem State.recordRead_K (v : Word) : (s.recordRead v).K = s.K := rfl
@[simp] theorem State.recordRead_KEYLEN (v : Word) : (s.recordRead v).KEYLEN = s.KEYLEN := rfl
@[simp] theorem State.recordRead_I (v : Word) : (s.recordRead v).I = s.I := rfl
@[simp] theorem State.recordRead_J (v : Word) : (s.recordRead v).J = s.J := rfl
@[simp] theorem State.recordRead_VALID (v : Word) : (s.recordRead v).VALID = s.VALID := rfl
@[simp] theorem State.recordRead_ERR (v : Word) : (s.recordRead v).ERR = s.ERR := rfl
@[simp] theorem State.recordRead_DOUT (v : Word) : (s.recordRead v).DOUT = s.DOUT := rfl
@[simp] theorem State.recordRead_cmdIndex (v : Word) : (s.recordRead v).cmdIndex = s.cmdIndex := rfl
@[simp] theorem State.recordRead_pending (v : Word) : (s.recordRead v).pending = s.pending := rfl
@[simp] theorem State.recordRead_reads (v : Word) : (s.recordRead v).reads = s.reads ++ [v] := rfl

@[simp] theorem State.resetBlock_S : (s.resetBlock).S = [] := rfl
@[simp] theorem State.resetBlock_K : (s.resetBlock).K = [] := rfl
@[simp] theorem State.resetBlock_KEYLEN : (s.resetBlock).KEYLEN = 0#9 := rfl
@[simp] theorem State.resetBlock_I : (s.resetBlock).I = 0#8 := rfl
@[simp] theorem State.resetBlock_J : (s.resetBlock).J = 0#8 := rfl
@[simp] theorem State.resetBlock_VALID : (s.resetBlock).VALID = false := rfl
@[simp] theorem State.resetBlock_ERR : (s.resetBlock).ERR = 0#4 := rfl
@[simp] theorem State.resetBlock_DOUT : (s.resetBlock).DOUT = 0#8 := rfl
@[simp] theorem State.resetBlock_cmdIndex : (s.resetBlock).cmdIndex = s.cmdIndex := rfl
@[simp] theorem State.resetBlock_pending : (s.resetBlock).pending = s.pending := rfl
@[simp] theorem State.resetBlock_reads : (s.resetBlock).reads = s.reads := rfl

@[simp] theorem State.advanceCursors_S : (s.advanceCursors).S = s.S.swap (s.I + 1#8) (s.J + s.S.read (s.I + 1#8)) := rfl
@[simp] theorem State.advanceCursors_K : (s.advanceCursors).K = s.K := rfl
@[simp] theorem State.advanceCursors_KEYLEN : (s.advanceCursors).KEYLEN = s.KEYLEN := rfl
@[simp] theorem State.advanceCursors_I : (s.advanceCursors).I = s.I + 1#8 := rfl
@[simp] theorem State.advanceCursors_J : (s.advanceCursors).J = s.J + s.S.read (s.I + 1#8) := rfl
@[simp] theorem State.advanceCursors_VALID : (s.advanceCursors).VALID = s.VALID := rfl
@[simp] theorem State.advanceCursors_ERR : (s.advanceCursors).ERR = s.ERR := rfl
@[simp] theorem State.advanceCursors_DOUT : (s.advanceCursors).DOUT = s.DOUT := rfl
@[simp] theorem State.advanceCursors_cmdIndex : (s.advanceCursors).cmdIndex = s.cmdIndex := rfl
@[simp] theorem State.advanceCursors_pending : (s.advanceCursors).pending = s.pending := rfl
@[simp] theorem State.advanceCursors_reads : (s.advanceCursors).reads = s.reads := rfl

end Sys2Proof.Machine
end

