-- ==== Sys2Proof/Laws/Ops.lean ====
section
/-! SUPPORT. What each shared operation and each meaning can do, said once. -/

namespace Sys2Proof.Machine

/-- A command is rejected in one way: ERR takes the error's code (R13). -/
theorem raise_next {e : CommandError} {s t : State} (h : raise e s = .next t) : t = { s with ERR := errorCode e } := by
  simpa [raise, eq_comm] using h

@[simp] theorem errorCode_le (e : CommandError) : (errorCode e).toNat ≤ 3 := by cases e <;> decide

/-- KSA with an empty key is rejected (R142). -/
theorem execKsa_empty {s : State} (h : s.KEYLEN = 0#9) : execKsa s = .next { s with ERR := 1#4 } :=
  if_pos (decide_eq_true h)

/-- KSA with a key is accepted (R85). -/
theorem execKsa_accepted {s : State} (h : s.KEYLEN ≠ 0#9) :
    execKsa s = .next { s with S := keySchedule s.K s.KEYLEN.toNat, I := 0#8, J := 0#8, VALID := true } :=
  if_neg fun hc => h (of_decide_eq_true hc)

/-- XFORM on an unscheduled state is rejected (R143). -/
theorem execXform_unscheduled {s : State} (h : s.VALID = false) (b : Byte) : execXform b s = .next { s with ERR := 2#4 } := by
  simp [execXform, unscheduled, h, raise, errorCode]

/-- XFORM on a scheduled state is accepted (R100). -/
theorem execXform_accepted {s : State} (h : s.VALID = true) (b : Byte) :
    execXform b s = .next (s.advanceCursors.setDout (b ^^^ s.advanceCursors.keystreamByte)) := by
  simp [execXform, unscheduled, h]

/-- Everything a command can do (R140): each is accepted with its own effect, or, for KSA and XFORM, rejected. -/
theorem exec_cases (i : Instr) (s : State) :
    (i = .nop ∧ exec i s = .next s) ∨
    (∃ a b, i = .keywr a b ∧ exec i s = .next (s.setKeyByte a b)) ∨
    (∃ l, i = .keylen l ∧ exec i s = .next { s with KEYLEN := l }) ∨
    (i = .ksa ∧ s.KEYLEN = 0#9 ∧ exec i s = .next { s with ERR := 1#4 }) ∨
    (i = .ksa ∧ s.KEYLEN ≠ 0#9 ∧
      exec i s = .next { s with S := keySchedule s.K s.KEYLEN.toNat, I := 0#8, J := 0#8, VALID := true }) ∨
    (∃ b, i = .xform b ∧ s.VALID = false ∧ exec i s = .next { s with ERR := 2#4 }) ∨
    (∃ b, i = .xform b ∧ s.VALID = true ∧
      exec i s = .next (s.advanceCursors.setDout (b ^^^ s.advanceCursors.keystreamByte))) ∨
    (∃ a, i = .sread a ∧ exec i s = .next (s.setDout (s.S.read a))) ∨
    (∃ c, i = .cread c ∧ exec i s = .next (s.setDout (s.cursor c))) ∨
    (i = .zero ∧ exec i s = .next
      { s with S := [], K := [], I := 0#8, J := 0#8, KEYLEN := 0#9, DOUT := 0#8, VALID := false }) ∨
    (i = .clrerr ∧ exec i s = .next (clearError s)) := by
  cases i with
  | nop => exact .inl ⟨rfl, rfl⟩
  | keywr a b => exact .inr (.inl ⟨a, b, rfl, rfl⟩)
  | keylen l => exact .inr (.inr (.inl ⟨l, rfl, rfl⟩))
  | ksa =>
    by_cases hk : s.KEYLEN = 0#9
    · exact .inr (.inr (.inr (.inl ⟨rfl, hk, execKsa_empty hk⟩)))
    · exact .inr (.inr (.inr (.inr (.inl ⟨rfl, hk, execKsa_accepted hk⟩))))
  | xform b =>
    by_cases hv : s.VALID = true
    · exact .inr (.inr (.inr (.inr (.inr (.inr (.inl ⟨b, rfl, hv, execXform_accepted hv b⟩))))))
    · have hf : s.VALID = false := by simpa using hv
      exact .inr (.inr (.inr (.inr (.inr (.inl ⟨b, rfl, hf, execXform_unscheduled hf b⟩)))))
  | sread a => exact .inr (.inr (.inr (.inr (.inr (.inr (.inr (.inl ⟨a, rfl, rfl⟩)))))))
  | cread c => exact .inr (.inr (.inr (.inr (.inr (.inr (.inr (.inr (.inl ⟨c, rfl, rfl⟩))))))))
  | zero => exact .inr (.inr (.inr (.inr (.inr (.inr (.inr (.inr (.inr (.inl ⟨rfl, rfl⟩)))))))))
  | clrerr => exact .inr (.inr (.inr (.inr (.inr (.inr (.inr (.inr (.inr (.inr ⟨rfl, rfl⟩)))))))))

/-- Every command has a next state, from every state (R140). -/
theorem exec_answers_next (i : Instr) (s : State) : ∃ t, exec i s = .next t := by
  rcases exec_cases i s with h | ⟨_, _, h⟩ | ⟨_, h⟩ | h | h | ⟨_, h⟩ | ⟨_, h⟩ | ⟨_, h⟩ | ⟨_, h⟩ | h | h <;>
    exact ⟨_, (by first | exact h.2.2 | exact h.2)⟩

/-- To show something of every command and the state it leaves, show it of each outcome (R140). -/
theorem exec_elim {P : Instr → State → Prop} {s : State}
    (nop : P .nop s)
    (keywr : ∀ a b, P (.keywr a b) (s.setKeyByte a b))
    (keylen : ∀ l, P (.keylen l) { s with KEYLEN := l })
    (ksaRejected : s.KEYLEN = 0#9 → P .ksa { s with ERR := 1#4 })
    (ksa : s.KEYLEN ≠ 0#9 →
      P .ksa { s with S := keySchedule s.K s.KEYLEN.toNat, I := 0#8, J := 0#8, VALID := true })
    (xformRejected : ∀ b, s.VALID = false → P (.xform b) { s with ERR := 2#4 })
    (xform : ∀ b, s.VALID = true →
      P (.xform b) (s.advanceCursors.setDout (b ^^^ s.advanceCursors.keystreamByte)))
    (sread : ∀ a, P (.sread a) (s.setDout (s.S.read a)))
    (cread : ∀ c, P (.cread c) (s.setDout (s.cursor c)))
    (zero : P .zero { s with S := [], K := [], I := 0#8, J := 0#8, KEYLEN := 0#9, DOUT := 0#8, VALID := false })
    (clrerr : P .clrerr (clearError s))
    {i : Instr} {t : State} (h : exec i s = .next t) : P i t := by
  rcases exec_cases i s with ⟨rfl, hx⟩ | ⟨a, b, rfl, hx⟩ | ⟨l, rfl, hx⟩ | ⟨rfl, hk, hx⟩ | ⟨rfl, hk, hx⟩ | ⟨b, rfl, hv, hx⟩ |
    ⟨b, rfl, hv, hx⟩ | ⟨a, rfl, hx⟩ | ⟨c, rfl, hx⟩ | ⟨rfl, hx⟩ | ⟨rfl, hx⟩ <;>
    obtain rfl := Host.Outcome.next.inj (hx.symm.trans h)
  · exact nop
  · exact keywr a b
  · exact keylen l
  · exact ksaRejected hk
  · exact ksa hk
  · exact xformRejected b hv
  · exact xform b hv
  · exact sread a
  · exact cread c
  · exact zero
  · exact clrerr

/-- A word that decodes is executed, with the command index advanced (R46, R21). -/
theorem issueCommand_ok {w : Word} {i : Instr} (h : decode w = .ok i) (s : State) :
    issueCommand w s = exec i s.countCommand := by
  simp [issueCommand, h]

/-- A word that does not decode is rejected (R144). -/
theorem issueCommand_error {w : Word} {e : DecodeError} (h : decode w = .error e) (s : State) :
    issueCommand w s = .next { s with ERR := 3#4, cmdIndex := s.cmdIndex + 1 } := by
  simp [issueCommand, h, raise, errorCode, State.countCommand]

theorem issueCommand_answers_next (w : Word) (s : State) : ∃ t, issueCommand w s = .next t := by
  unfold issueCommand
  split
  · exact exec_answers_next _ _
  · exact ⟨_, rfl⟩

/-- Everything an interaction with a next state can be (R172). -/
theorem perform_cases {a : HostAction} {s t : State} (h : perform a s = .next t) :
    (∃ o, a = .read o 4 ∧ t = s.recordRead (registerValue o s)) ∨
    (∃ w, a = commandWrite w ∧ issueCommand w s = .next t) ∨
    (∃ o w, a = .write o 4 w ∧ t = s) ∨
    (a = .reset ∧ t = s.resetBlock) ∨
    (∃ w, a = .resetDuring w ∧ t = s.countCommand.resetBlock) := by
  cases a with
  | read o n =>
    simp only [perform, busRead] at h
    split_ifs at h with hs
    simp only [accessSupported, Bool.and_eq_true, decide_eq_true_eq] at hs
    exact .inl ⟨o, by rw [hs.1], (Host.Outcome.next.inj h).symm⟩
  | write o n w =>
    simp only [perform, busWrite] at h
    split_ifs at h with hs ho
    · simp only [accessSupported, Bool.and_eq_true, decide_eq_true_eq] at hs
      exact .inr (.inl ⟨w, by rw [commandWrite, hs.1, ho], h⟩)
    · simp only [accessSupported, Bool.and_eq_true, decide_eq_true_eq] at hs
      exact .inr (.inr (.inl ⟨o, w, by rw [hs.1], (Host.Outcome.next.inj h).symm⟩))
  | reset => exact .inr (.inr (.inr (.inl ⟨rfl, (Host.Outcome.next.inj h).symm⟩)))
  | resetDuring w => exact .inr (.inr (.inr (.inr ⟨w, rfl, (Host.Outcome.next.inj h).symm⟩)))

/-- Everything a step with a next state can be: nothing to do, or the first interaction performed. -/
theorem step_cases {s t : State} (h : step s = .next t) :
    (s.pending = [] ∧ t = s) ∨
    (∃ a rest, s.pending = a :: rest ∧ perform a { s with pending := rest } = .next t) := by
  unfold step performNext at h
  split at h
  · rename_i hp
    exact .inl ⟨hp, (Host.Outcome.next.inj h).symm⟩
  · rename_i a rest hp
    exact .inr ⟨a, rest, hp, h⟩

theorem ksa_foldl_keeps {P : Memory → Prop} (hP : ∀ m a b, P m → P (m.swap a b)) (K : Memory) (L : Nat) (ns : List Nat)
    (m : Memory) (acc : Byte) (h : P m) : P (ns.foldl (ksaIteration K L) (m, acc)).1 := by
  induction ns generalizing m acc with
  | nil => exact h
  | cons n ns ih => exact ih _ _ (hP _ _ _ h)

/-- What every swap keeps and the identity has, the key schedule has (R90). -/
theorem keySchedule_keeps {P : Memory → Prop} (hP : ∀ m a b, P m → P (m.swap a b)) (h : P Memory.identity) (K : Memory)
    (L : Nat) : P (keySchedule K L) := by
  unfold keySchedule
  exact ksa_foldl_keeps hP K L byteIndexes Memory.identity 0#8 h

end Sys2Proof.Machine
end

