-- ==== Sys2Proof/Laws/PerInstr.lean ====
section
/-! SUPPORT. A family of per-command statements about the encoding: RSV is 0 and OP is that of the command's own row of the opcode
map (R62, R67). -/

namespace Sys2Proof.Laws.EncodingFields

/-- The command's word has RSV = 0 and the opcode of the row of R67 that bears the command's mnemonic. -/
def Statement (i : Instr) : Prop :=
  rsvField (encode i) = 0#11 ∧ ∃ r ∈ opcodeMap, r.mnemonic = mnemonicOf i ∧ opField r.pattern = opField (encode i)

theorem nop : Statement .nop := ⟨by decide, opcodeMap[0], by decide, by decide, by decide⟩
theorem keywr (idx byte : Byte) : Statement (.keywr idx byte) :=
  ⟨by simp [encode], opcodeMap[1], by decide, rfl, by simp [encode]; decide⟩
theorem keylen (len : BitVec 9) : Statement (.keylen len) :=
  ⟨by simp [encode], opcodeMap[2], by decide, rfl, by simp [encode]; decide⟩
theorem ksa : Statement .ksa := ⟨by decide, opcodeMap[3], by decide, by decide, by decide⟩
theorem xform (byte : Byte) : Statement (.xform byte) :=
  ⟨by simp [encode], opcodeMap[4], by decide, rfl, by simp [encode]; decide⟩
theorem sread (idx : Byte) : Statement (.sread idx) :=
  ⟨by simp [encode], opcodeMap[5], by decide, rfl, by simp [encode]; decide⟩
theorem cread (sel : CursorSel) : Statement (.cread sel) :=
  ⟨by simp [encode], opcodeMap[6], by decide, rfl, by simp [encode]; decide⟩
theorem zero : Statement .zero := ⟨by decide, opcodeMap[7], by decide, by decide, by decide⟩
theorem clrerr : Statement .clrerr := ⟨by decide, opcodeMap[8], by decide, by decide, by decide⟩

end Sys2Proof.Laws.EncodingFields
end

