-- ==== Sys2Proof/Laws/Platform.lean ====
section
/-! SUPPORT. Where the windows lie, which addresses a window holds, and everything a core's answer does to the platform. -/

namespace Sys2Proof

/-- The cores are numbered by ascending window (log 11). -/
theorem Config.windowIndex_lt {j k : Nat} (h : j < k) : Config.windowIndex j < Config.windowIndex k := by
  induction k with
  | zero => omega
  | succ k ih =>
    have hk : Config.windowIndex (k + 1) = Config.windowIndex k + 1 + Config.windowGap (k + 1) := rfl
    rcases Nat.lt_succ_iff_lt_or_eq.mp h with h | rfl
    · have := ih h; omega
    · omega

/-- The window of a later core starts after the last address of an earlier one's. -/
theorem Config.rc4Base_le {j k : Nat} (h : j < k) : Config.rc4Base j + 16 ≤ Config.rc4Base k := by
  have := Config.windowIndex_lt h
  unfold Config.rc4Base
  omega

namespace Machine

/-- The addresses of a window are its base plus an offset (R45). -/
theorem windowOffset_eq_some {k addr : Nat} {o : BitVec 4} :
    windowOffset k addr = some o ↔ addr = Config.rc4Base k + o.toNat := by
  have ho := o.isLt
  unfold windowOffset
  constructor
  · intro h
    split_ifs at h with hw
    obtain rfl := Option.some.inj h
    rw [BitVec.toNat_ofNat]
    omega
  · rintro rfl
    rw [if_pos (by omega), Nat.add_sub_cancel_left, BitVec.ofNat_toNat, BitVec.setWidth_eq]

/-- The core found at an address is the one whose window holds it (R155). -/
theorem coreAt_windowOffset {n addr : Nat} {k : Fin n} (h : coreAt n addr = some k) : ∃ o, windowOffset k.val addr = some o :=
  Option.isSome_iff_exists.mp (by simpa using List.find?_some h)

/-- No core is found where the address is in no window. -/
theorem coreAt_eq_none {n addr : Nat} : coreAt n addr = none ↔ ∀ k : Fin n, windowOffset k.val addr = none := by
  simp [coreAt]

/-- A next platform has the core's own next state in its place and every other core as it was (R155). -/
theorem Platform.answer_next {n : Nat} {p q : Platform n} {k : Fin n} {r : Result} (h : p.answer k r = .next q) :
    r = .next q[k] ∧ ∀ m : Fin n, m ≠ k → q[m] = p[m] := by
  cases r with
  | next t =>
    obtain rfl := Host.Outcome.next.inj h
    refine ⟨by simp, fun m hm => ?_⟩
    have : k.val ≠ m.val := fun e => hm (Fin.ext e.symm)
    simp [this]
  | fault f => cases h
  | refused f => cases h

end Machine

end Sys2Proof
end

