-- ==== Sys2Proof/Tests/Slice0.lean ====
section
/-! SUPPORT. Tests, and for every statement with hypotheses a state and operands that meet them. Expected results are the spec's
own (95_test_vectors.md and the examples of the rules); each test names its source. -/

namespace Sys2Proof.Tests

open Sys2Proof.Machine

/-- The next state, where there is one. -/
def nextOf : Result → Option State
  | .next t => some t
  | .fault _ => none
  | .refused _ => none

/-- The refusal, where there is one. -/
def refusalOf : Result → Option Refusal
  | .next _ => none
  | .fault _ => none
  | .refused r => some r

/-- The command a word decodes to, where it is legal. -/
def legal (w : Word) : Option Instr := decodeTableWord 32 w.toNat

/-- The state after one CMD write of `w` from `s`. -/
def after (s : State) (w : Nat) : Option State := nextOf (step (s.withFetchWord 32 w))

/-! ### Well-formed commands -/

/-- R63, R82: a key length above 256 is no operand. -/
theorem test_wf_refuses_keylen_257 : (Instr.keylen 257).wf = false := by decide
theorem test_wf_admits_keylen_256 : (Instr.keylen 256).wf = true := by decide

/-! ### Decoding: words of 95_test_vectors.md 3.1 and R75 -/

theorem test_decode_nop : legal 0x00000000#32 = some .nop := by decide
theorem test_decode_keywr : legal 0x1000046F#32 = some (.keywr 4 0x6F) := by decide
theorem test_decode_keywr_last : legal 0x1000FFFF#32 = some (.keywr 255 0xFF) := by decide
theorem test_decode_keylen : legal 0x20000500#32 = some (.keylen 5) := by decide
theorem test_decode_keylen_256 : legal 0x20010000#32 = some (.keylen 256) := by decide
theorem test_decode_ksa : legal 0x30000000#32 = some .ksa := by decide
theorem test_decode_xform : legal 0x40000042#32 = some (.xform 0x42) := by decide
theorem test_decode_sread : legal 0x50003F00#32 = some (.sread 63) := by decide
theorem test_decode_cread_i : legal 0x60000000#32 = some (.cread .i) := by decide
theorem test_decode_cread_j : legal 0x60000100#32 = some (.cread .j) := by decide
theorem test_decode_zero : legal 0x70000000#32 = some .zero := by decide
theorem test_decode_clrerr : legal 0x80000000#32 = some .clrerr := by decide

/-- The ILLEGAL words of 95_test_vectors.md 3.1. -/
theorem test_decode_illegal :
    legal 0x00000001#32 = none ∧ legal 0x00020000#32 = none ∧ legal 0x08000000#32 = none ∧ legal 0x10010000#32 = none ∧
    legal 0x20010100#32 = none ∧ legal 0x2001FF00#32 = none ∧ legal 0x20000501#32 = none ∧ legal 0x30000100#32 = none ∧
    legal 0x40000100#32 = none ∧ legal 0x50010000#32 = none ∧ legal 0x50000001#32 = none ∧ legal 0x60000200#32 = none ∧
    legal 0x80000080#32 = none ∧ legal 0x90000000#32 = none ∧ legal 0xF0000000#32 = none ∧ legal 0xFFFFFFFF#32 = none := by decide

theorem test_encode_cread_j : encode (.cread .j) = 0x60000100#32 := by decide
theorem test_encode_keylen_256 : encode (.keylen 256) = 0x20010000#32 := by decide

/-! ### Small states -/

/-- The entries of S that the first step of the PRGA trace of key "hello" meets (95_test_vectors.md 1.1). -/
def helloStart : State :=
  { State.reset with S := [(1, 0xE3#8), (0xA0, 0x0F#8), (0xE3, 0xBD#8)], VALID := true, KEYLEN := 5#9 }

/-- The entries and cursors that its second step meets. -/
def helloSecond : State :=
  { State.reset with
    S := [(2, 0xB1#8), (0x4B, 0x51#8), (0x94, 0x9A#8)], I := 1#8, J := 0xE3#8, VALID := true, KEYLEN := 5#9 }

/-- The key "hello", loaded and not scheduled. -/
def helloLoaded : State :=
  { State.reset with K := [(0, 0x68#8), (1, 0x65#8), (2, 0x6C#8), (3, 0x6C#8), (4, 0x6F#8)], KEYLEN := 5#9 }

/-- A state whose ERR is 3. -/
def erred : State := { helloStart with ERR := 3#4 }

/-! ### The commands -/

/-- R80's example and 95_test_vectors.md 3.2. -/
theorem test_keywr : (after State.reset 0x10000068).map (fun t => (t.K.read 0, t.K.read 1)) = some (0x68, 0) := by decide
/-- Writing the same position twice keeps the last byte (R80). -/
theorem test_keywr_twice :
    ((after helloLoaded 0x10000101).bind fun t => (after t 0x10000100).map fun u => (u.K.read 1, u.K.wf)) = some (0, true) := by
  decide
/-- R82's example: STATUS reads 0x00050000. -/
theorem test_keylen : (after State.reset 0x20000500).map statusWord = some 0x00050000 := by decide
/-- 95_test_vectors.md 3.2: KEYLEN 257 is rejected and KEYLEN stays. -/
theorem test_keylen_257 : (after { State.reset with KEYLEN := 256#9 } 0x20010100).map statusWord = some 0x01000030 := by decide
/-- 95_test_vectors.md P2: KSA from reset is rejected with INVALID_KEY. -/
theorem test_ksa_empty_key : (after State.reset 0x30000000).map statusWord = some 0x00000010 := by decide
/-- The second row of the KSA trace of "hello": acc 104 -> 206, S[1] and S[206] swapped (95_test_vectors.md 1.1). -/
theorem test_ksa_iteration :
    ksaIteration helloLoaded.K 5 ([(1, 1#8), (206, 206#8)], 104#8) 1 = ([(1, 206#8), (206, 1#8)], 206#8) := by decide
/-- The third row: (206 + 2 + 0x6C) mod 256 = 60. -/
theorem test_ksa_iteration_wraps :
    ksaIteration helloLoaded.K 5 ([(2, 2#8), (60, 60#8)], 206#8) 2 = ([(2, 60#8), (60, 2#8)], 60#8) := by decide
/-- R100's example: I = 1, J = 0xE3, S[1] = 0xBD, S[227] = 0xE3, DOUT = 0x4D. -/
theorem test_xform_first :
    (after helloStart 0x40000042).map (fun t => (t.I, t.J, t.S.read 1, t.S.read 0xE3, t.DOUT)) =
      some (1, 0xE3, 0xBD, 0xE3, 0x4D) := by decide
/-- The second row of the PRGA trace. -/
theorem test_xform_second :
    (after helloSecond 0x40000079).map (fun t => (t.I, t.J, t.S.read 2, t.S.read 0x94, t.DOUT)) =
      some (2, 0x94, 0x9A, 0xB1, 0x28) := by decide
/-- 95_test_vectors.md 3.4: XFORM from reset is rejected, ERR = 2. -/
theorem test_xform_unscheduled : (after State.reset 0x40000042).map (fun t => (t.ERR, t.DOUT, t.I)) = some (2, 0, 0) := by decide
/-- 95_test_vectors.md 3.4, from the identity: I wraps 255 to 0 and DOUT = byte. -/
theorem test_xform_wraps :
    (after { helloStart with I := 255#8, S := [] } 0x40000000).map (fun t => (t.I, t.J, t.DOUT)) = some (0, 0, 0) := by decide
/-- 95_test_vectors.md 3.5: ZERO keeps ERR. -/
theorem test_zero_keeps_err :
    (after { erred with ERR := 2#4 } 0x70000000).map (fun t => (statusWord t, t.S.read 1, t.DOUT)) = some (0x00000020, 0, 0) := by
  decide
theorem test_nop : (after erred 0x00000000).map (fun t => (t.ERR, t.cmdIndex)) = some (3, 1) := by decide
theorem test_sread : (after helloStart 0x5000E300).map (fun t => t.DOUT) = some 0xBD := by decide
theorem test_cread_i : (after helloSecond 0x60000000).map (fun t => t.DOUT) = some 1 := by decide
theorem test_cread_j : (after helloSecond 0x60000100).map (fun t => t.DOUT) = some 0xE3 := by decide
theorem test_clrerr : (after erred 0x80000000).map (fun t => t.ERR) = some 0 := by decide
/-- 95_test_vectors.md 3.5: an illegal CLRERR sets ERR to 3. -/
theorem test_clrerr_illegal : (after helloStart 0x80000001).map (fun t => t.ERR) = some 3 := by decide
/-- R147: 0x30000001 is ILLEGAL_COMMAND even when KEYLEN is 0. -/
theorem test_priority : (after State.reset 0x30000001).map (fun t => t.ERR) = some 3 := by decide
/-- 95_test_vectors.md 3.6. -/
theorem test_status : statusWord { State.reset with VALID := true, ERR := 3#4, KEYLEN := 256#9 } = 0x01000031 := by decide

/-! ### The window -/

theorem test_read_status :
    (nextOf (step { helloStart with pending := [.read 0x4#4 4] })).map (fun t => t.reads) = some [0x00050001] := by decide
theorem test_byte_access_refused :
    refusalOf (step { helloStart with pending := [.read 0x8#4 1] }) = some .unsupportedAccess := by decide
theorem test_reset_input :
    (nextOf (step { erred with pending := [.reset] })).map (fun t => (statusWord t, t.S, t.K)) = some (0, [], []) := by decide
/-- R75: the syntax of `keywr 4, 'o'`. -/
theorem test_assembler_text :
    assembleText ['k', 'e', 'y', 'w', 'r', ' ', '4', ',', ' ', apostrophe, 'o', apostrophe] = some [0x1000046F#32] := by decide
/-- The model's choice (log 15): a blank must stand between the mnemonic and a character literal. -/
theorem test_assembler_blank_before_literal :
    assembleText "xform 'B'".toList = some [0x40000042#32] ∧ assembleText "xform'B'".toList = none := by decide
/-- R74: `setkey "ab"`, with 'a' = 0x61 and 'b' = 0x62. -/
theorem test_assembler_setkey :
    assembleText ['s', 'e', 't', 'k', 'e', 'y', ' ', quotationMark, 'a', 'b', quotationMark] =
      some [0x10000061#32, 0x10000162#32, 0x20000200#32, 0x30000000#32] := by decide

/-! ### Witnesses: the hypotheses of each statement can be met -/

theorem decode_eq_of_legal {w : Word} {i : Instr} (h : legal w = some i) : decode w = .ok i := by
  have hw : BitVec.ofNat 32 (w.toNat % 2 ^ 32) = w := by
    rw [Nat.mod_eq_of_lt w.isLt, BitVec.ofNat_toNat, BitVec.setWidth_eq]
  unfold legal decodeTableWord at h
  rw [if_pos (by decide), hw] at h
  split at h
  · rename_i j hj
    rw [hj, Option.some.inj h]
  · cases h

theorem witness_DecodeOfEncode : (Instr.keylen 256).wf = true := by decide
theorem witness_EncodeOfDecode : decode 0x20010000#32 = .ok (.keylen 256) := decode_eq_of_legal (by decide)
theorem witness_DecoderAgreesWithOpcodeMap :
    decode 0x40000042#32 = .ok (.xform 0x42) ∧ ∃ r ∈ opcodeMap, rowSelects r 0x40000042#32 = true :=
  ⟨decode_eq_of_legal (by decide), by decide⟩
theorem witness_ReservedEncodingsAreIllegal :
    9 ≤ (opField 0x90000000#32).toNat ∧ rsvField 0x00020000#32 ≠ 0#11 ∧
    (opField 0x40000100#32 = 0x4#4 ∧ aField 0x40000100#32 ≠ 0#9) ∧
    (opField 0x30000001#32 = 0x3#4 ∧ dField 0x30000001#32 ≠ 0#8) ∧
    (opField 0x10010000#32 = 0x1#4 ∧ (aField 0x10010000#32)[8] = true) ∧
    (opField 0x20010100#32 = 0x2#4 ∧ 256 < (aField 0x20010100#32).toNat) ∧
    (opField 0x60000200#32 = 0x6#4 ∧ 1 < (aField 0x60000200#32).toNat) := by decide
theorem witness_StepRunsDecodedCommand :
    ({ helloStart with pending := [.write 0x0#4 4 0x30000000#32] } : State).pending = .write 0x0#4 4 0x30000000#32 :: [] ∧
    decode 0x30000000#32 = .ok .ksa ∧ decodeTableWord 32 0x30000000 = some .ksa :=
  ⟨rfl, decode_eq_of_legal (by decide), by decide⟩
theorem witness_StepRejectsIllegalWord :
    ({ helloStart with pending := [.write 0x0#4 4 0x90000000#32] } : State).pending = .write 0x0#4 4 0x90000000#32 :: [] ∧
    decode 0x90000000#32 = .error .reservedOpcode := ⟨rfl, rfl⟩
theorem witness_StatusReadShowsFields :
    ({ erred with pending := [.read 0x4#4 4] } : State).pending = .read 0x4#4 4 :: [] := rfl
theorem witness_DoutReadReturnsDout :
    ({ erred with pending := [.read 0x8#4 4, .read 0x8#4 4] } : State).pending = .read 0x8#4 4 :: .read 0x8#4 4 :: [] := rfl
theorem witness_OtherRegistersReadZeroAndIgnoreWrites :
    ({ erred with pending := [.read 0x0#4 4] } : State).pending = .read 0x0#4 4 :: [] ∧
    ({ erred with pending := [.read 0xC#4 4] } : State).pending = .read 0xC#4 4 :: [] ∧
    ({ erred with pending := [.write 0x4#4 4 1#32] } : State).pending = .write 0x4#4 4 1#32 :: [] ∧
    ({ erred with pending := [.write 0x8#4 4 1#32] } : State).pending = .write 0x8#4 4 1#32 :: [] ∧
    ({ erred with pending := [.write 0xC#4 4 1#32] } : State).pending = .write 0xC#4 4 1#32 :: [] := ⟨rfl, rfl, rfl, rfl, rfl⟩
theorem witness_OnlyAlignedWordAccessesSupported :
    ({ erred with pending := [.read 0xD#4 4] } : State).pending = .read 0xD#4 4 :: [] ∧
    ¬ (4 = 4 ∧ 4 ∣ (0xD#4).toNat) ∧ ¬ (2 = 4 ∧ 4 ∣ (0x0#4).toNat) ∧
    ({ erred with pending := [.write 0xC#4 4 0#32] } : State).pending = .write 0xC#4 4 0#32 :: [] ∧
    (4 = 4 ∧ 4 ∣ (0xC#4).toNat) := by decide
theorem witness_WindowHoldsSixteenAddresses :
    Config.rc4Base 0 + 16 ≤ Config.rc4Base 1 ∧ (0 : Nat) ≠ 1 ∧ windowOffset 0 (Config.rc4Base 0 + 15) = some 0xF#4 :=
  ⟨Config.rc4Base_le (by decide), by decide, windowOffset_eq_some.mpr rfl⟩
theorem witness_RegisterLanesAreLittleEndian : 7 < 8 := by decide
theorem witness_AssemblerFollowsSyntaxTable : 1 < 2 := by decide
theorem witness_IdleStepKeepsState : helloStart.pending = [] := rfl
/-- For ResetInputLeavesResetState and ResetInputKeepsHostFields. -/
theorem witness_ResetInputLeavesResetState :
    ({ erred with pending := [.reset] } : State).pending = .reset :: [] ∧
    ({ erred with pending := [.resetDuring 0x30000000#32] } : State).pending = .resetDuring 0x30000000#32 :: [] := ⟨rfl, rfl⟩

/-- A step that sets KEYLEN from reset: the witness of the invariants' statements. -/
theorem witness_step_from_reset :
    ∃ t, step (startRun [commandWrite 0x20010000#32]) = .next t ∧ t.KEYLEN = 256#9 :=
  ⟨_, rfl, by decide⟩
theorem witness_StepKeepsMemoryCanonical : (startRun [commandWrite 0x20010000#32]).canonical := ⟨rfl, rfl⟩
theorem witness_StepKeepsPermutation :
    ({ State.reset with S := Memory.identity, VALID := true } : State).permutationHeld ∧
    ∃ t, step { State.reset with S := Memory.identity, VALID := true } = .next t := by
  refine ⟨fun _ => ?_, _, rfl⟩
  have : Memory.identity.read = id := funext Memory.read_identity
  show Function.Bijective Memory.identity.read
  rw [this]
  exact Function.bijective_id
theorem witness_StepKeepsUnscheduledZero : (startRun [commandWrite 0x20010000#32]).zeroWhenUnscheduled :=
  fun _ => ⟨fun _ => rfl, rfl, rfl, rfl⟩
theorem witness_StepKeepsLegalFields : (startRun [commandWrite 0x20010000#32]).legalFields := by
  unfold State.legalFields; decide
theorem witness_EveryRunMeetsInvariants :
    ∃ t, core.run 1 (startRun [commandWrite 0x20010000#32]) = .next t := ⟨_, rfl⟩
theorem witness_StepStops_next : ∃ t, step State.reset = .next t := ⟨_, rfl⟩
theorem witness_RejectedCommandWritesOnlyErr :
    rejection 0x90000000#32 State.reset = some .illegalCommand ∧ rejection 0x30000000#32 State.reset = some .invalidKey ∧
    rejection 0x40000042#32 State.reset = some .notScheduled ∧ rejection 0x40000042#32 helloStart = none := by decide
theorem witness_ValidChangesOnlyByKsaZeroReset :
    (∃ t, step { helloLoaded with pending := [commandWrite 0x30000000#32] } = .next t ∧ t.VALID ≠ helloLoaded.VALID) ∧
    (∃ t, step { helloStart with pending := [commandWrite 0x70000000#32] } = .next t ∧ t.VALID ≠ helloStart.VALID) ∧
    helloLoaded.KEYLEN ≠ 0#9 ∧ State.reset.KEYLEN = 0#9 ∧ State.reset.VALID = false := by
  refine ⟨⟨_, execKsa_accepted (s := { helloLoaded with cmdIndex := 1 }) (by decide), by decide⟩, ⟨_, rfl, by decide⟩, by decide,
    rfl, rfl⟩
theorem witness_DoutWriters :
    (∃ t, step { helloStart with pending := [commandWrite 0x40000042#32] } = .next t ∧ t.DOUT ≠ helloStart.DOUT) ∧
    (∃ t, step { helloSecond with pending := [commandWrite 0x60000000#32] } = .next t ∧ t.DOUT ≠ helloSecond.DOUT) ∧
    helloStart.VALID = true := ⟨⟨_, rfl, by decide⟩, ⟨_, rfl, by decide⟩, rfl⟩
/-- Each register is changed by some command. -/
theorem witness_CommandsWriteOnlyTheirRegisters :
    (nextOf (exec (.xform 0x42) helloStart)).map (fun t => (decide (t.S = helloStart.S), decide (t.I = helloStart.I),
      decide (t.DOUT = helloStart.DOUT))) = some (false, false, false) ∧
    (nextOf (exec (.keywr 0 1) helloStart)).map (fun t => decide (t.K = helloStart.K)) = some false ∧
    (nextOf (exec (.keylen 256) helloStart)).map (fun t => decide (t.KEYLEN = helloStart.KEYLEN)) = some false ∧
    (nextOf (exec .zero helloStart)).map (fun t => decide (t.VALID = helloStart.VALID)) = some false ∧
    (nextOf (exec .clrerr erred)).map (fun t => decide (t.ERR = erred.ERR)) = some false := by decide
theorem witness_CommandIndexCountsCmdWrites :
    ({ helloStart with pending := [.write 0x0#4 4 0x90000000#32] } : State).pending = .write 0x0#4 4 0x90000000#32 :: [] ∧
    (∃ t, step { helloStart with pending := [.write 0x4#4 4 0x90000000#32] } = .next t) ∧ (0x4#4 : BitVec 4) ≠ 0x0#4 ∧
    ∃ t, step { helloStart with pending := [.read 0x0#4 4] } = .next t := ⟨rfl, ⟨_, rfl⟩, by decide, ⟨_, rfl⟩⟩
theorem witness_ReadsSeeTheCommandBeforeThem :
    ({ helloStart with pending := [.write 0x0#4 4 0x40000042#32, .read 0x4#4 4] } : State).pending =
      .write 0x0#4 4 0x40000042#32 :: .read 0x4#4 4 :: [] ∧
    ({ helloStart with pending := [.write 0x0#4 4 0x40000042#32, .read 0x8#4 4] } : State).pending =
      .write 0x0#4 4 0x40000042#32 :: .read 0x8#4 4 :: [] := ⟨rfl, rfl⟩
theorem witness_KeyIsHiddenUntilKsa :
    State.sameButKey { helloStart with pending := [.read 0x4#4 4] }
      { helloStart with pending := [.read 0x4#4 4], K := helloLoaded.K } ∧
    (∃ t, step { helloStart with pending := [.read 0x4#4 4] } = .next t) ∧
    ∀ w rest, ({ helloStart with pending := [.read 0x4#4 4] } : State).pending = .write 0x0#4 4 w :: rest →
      decode w = .ok .ksa → helloStart.KEYLEN = 0#9 := by
  refine ⟨rfl, ⟨_, rfl⟩, ?_⟩
  intro w rest h
  cases h
theorem witness_CommandsButXformAreIdempotent :
    (∀ b, Instr.keywr 0 1 ≠ .xform b) ∧ ∃ t, exec (.keywr 0 1) helloStart = .next t :=
  ⟨fun _ h => (by cases h), _, rfl⟩
theorem witness_InstancesAreIndependent :
    (∃ q, platformStep (Vector.replicate 2 State.reset) (0 : Fin 2) = .next q) ∧ (1 : Fin 2) ≠ 0 := ⟨⟨_, rfl⟩, by decide⟩

/-- For AccessesReachTheirOwnCore: an address in no window (with one core, the one after it), and an answer of a core. -/
theorem witness_AccessesReachTheirOwnCore :
    (∀ k : Fin 1, windowOffset k (Config.rc4Base 0 + 16) = none) ∧
    ∃ q, Platform.answer (Vector.replicate 2 State.reset) (1 : Fin 2) (perform .reset erred) = .next q := by
  refine ⟨fun k => ?_, _, rfl⟩
  obtain rfl : k = 0 := Subsingleton.elim _ _
  exact if_neg (by simp)

/-- A legal and an illegal word of each opcode, for the encoding clause of each command's statement. -/
theorem witness_command_words :
    (opField 0x1000FFFF#32 = 0x1#4 ∧ rsvField 0x1000FFFF#32 = 0#11 ∧ (aField 0x1000FFFF#32)[8] = false) ∧
    (opField 0x10010000#32 = 0x1#4 ∧ (aField 0x10010000#32)[8] = true) ∧
    (opField 0x20010000#32 = 0x2#4 ∧ rsvField 0x20010000#32 = 0#11 ∧ dField 0x20010000#32 = 0#8 ∧
      (aField 0x20010000#32).toNat ≤ 256) ∧
    (opField 0x20000501#32 = 0x2#4 ∧ dField 0x20000501#32 ≠ 0#8) ∧
    (opField 0x30000000#32 = 0x3#4 ∧ rsvField 0x30000000#32 = 0#11 ∧ aField 0x30000000#32 = 0#9 ∧ dField 0x30000000#32 = 0#8) ∧
    (opField 0x30000100#32 = 0x3#4 ∧ aField 0x30000100#32 ≠ 0#9) ∧
    (opField 0x400000FF#32 = 0x4#4 ∧ rsvField 0x400000FF#32 = 0#11 ∧ aField 0x400000FF#32 = 0#9) ∧
    (opField 0x40000100#32 = 0x4#4 ∧ aField 0x40000100#32 ≠ 0#9) := by decide
theorem witness_readback_words :
    (opField 0x5000FF00#32 = 0x5#4 ∧ rsvField 0x5000FF00#32 = 0#11 ∧ (aField 0x5000FF00#32)[8] = false ∧
      dField 0x5000FF00#32 = 0#8) ∧
    (opField 0x50000001#32 = 0x5#4 ∧ dField 0x50000001#32 ≠ 0#8) ∧
    (opField 0x60000000#32 = 0x6#4 ∧ rsvField 0x60000000#32 = 0#11 ∧ aField 0x60000000#32 = 0#9 ∧ dField 0x60000000#32 = 0#8) ∧
    (opField 0x60000100#32 = 0x6#4 ∧ rsvField 0x60000100#32 = 0#11 ∧ aField 0x60000100#32 = 1#9 ∧ dField 0x60000100#32 = 0#8) ∧
    (opField 0x60000200#32 = 0x6#4 ∧ 1 < (aField 0x60000200#32).toNat) ∧
    (opField 0x70000000#32 = 0x7#4 ∧ rsvField 0x70000000#32 = 0#11 ∧ aField 0x70000000#32 = 0#9 ∧ dField 0x70000000#32 = 0#8) ∧
    (opField 0x70000001#32 = 0x7#4 ∧ dField 0x70000001#32 ≠ 0#8) ∧
    (opField 0x80000000#32 = 0x8#4 ∧ rsvField 0x80000000#32 = 0#11 ∧ aField 0x80000000#32 = 0#9 ∧ dField 0x80000000#32 = 0#8) ∧
    (opField 0x80000080#32 = 0x8#4 ∧ dField 0x80000080#32 ≠ 0#8) ∧
    (opField 0x00000000#32 = 0x0#4 ∧ rsvField 0x00000000#32 = 0#11 ∧ aField 0x00000000#32 = 0#9 ∧ dField 0x00000000#32 = 0#8) ∧
    (opField 0x00020000#32 = 0x0#4 ∧ rsvField 0x00020000#32 ≠ 0#11) := by decide
/-- For KsaRunsTheSourceSchedule, KsaYieldsPermutation, CursorCountsXforms: both cases of KEYLEN. -/
theorem witness_Ksa_keylen : helloLoaded.KEYLEN ≠ 0#9 ∧ State.reset.KEYLEN = 0#9 := by decide
/-- For XformPerformsOneKeystreamStep, XformKeepsPermutation, XbufIsTransform: both cases of VALID. -/
theorem witness_Xform_valid : helloStart.VALID = true ∧ State.reset.VALID = false := by decide
theorem witness_XformKeepsPermutation :
    ∃ s : State, s.VALID = true ∧ Function.Bijective s.S.read :=
  ⟨{ State.reset with S := Memory.identity, VALID := true }, rfl, witness_StepKeepsPermutation.1 rfl⟩
theorem witness_KeywrToDifferentPositionsCommutes : (0x00#8 : Byte) ≠ 0xFF#8 ∧ helloLoaded.K.wf = true := by decide
/-- For the statements about one key in two states: they differ beyond KEYLEN. -/
theorem witness_sameKey : sameKey helloLoaded (helloLoaded.setKeyByte 5 0xFF) :=
  ⟨by decide, rfl, by decide⟩
/-- R89's example: "ab" and "abab". -/
theorem witness_PeriodicKeysScheduleTheSameState :
    (2#9 : BitVec 9) ≠ 0#9 ∧ (4#9 : BitVec 9) ≠ 0#9 ∧
    ∀ n, n < 256 → keyByte [(0, 0x61#8), (1, 0x62#8)] 2 n =
      keyByte [(0, 0x61#8), (1, 0x62#8), (2, 0x61#8), (3, 0x62#8)] 4 n := by
  refine ⟨by decide, by decide, fun n _ => ?_⟩
  have h4 : n % 4 < 4 := Nat.mod_lt _ (by decide)
  have h2 : n % 2 = n % 4 % 2 := by omega
  unfold keyByte
  rw [h2]
  generalize n % 4 = k at h4
  interval_cases k <;> rfl
theorem witness_SetkeySchedulesAnyKey : ([0x61#8] : List Byte) ≠ [] := by decide
/-- NOP, an illegal word, a rejected KSA and an XFORM interrupt nothing. -/
theorem witness_StreamingEquivalence :
    { helloStart with KEYLEN := 0#9 }.VALID = true ∧
    uninterrupted [0x00000000#32, 0x90000000#32, 0x30000000#32, 0x40000042#32] { helloStart with KEYLEN := 0#9 } := by
  refine ⟨rfl, ?_, ?_, ?_, ?_, ?_, ?_, ?_, ?_, trivial⟩
  · rw [decode_eq_of_legal (i := .nop) (by decide)]; intro h; cases h
  · intro _; rfl
  · rw [show decode 0x90000000#32 = .error .reservedOpcode from rfl]; intro h; cases h
  · intro _; rfl
  · rw [decode_eq_of_legal (i := .ksa) (by decide)]; intro h; cases h
  · intro _; rfl
  · rw [decode_eq_of_legal (i := .xform 0x42) (by decide)]; intro h; cases h
  · intro _; rfl
theorem witness_CursorCountsXforms :
    helloLoaded.KEYLEN ≠ 0#9 ∧ ∃ t, exec .ksa helloLoaded = .next t ∧ uninterrupted [0x40000042#32] t := by
  refine ⟨by decide, _, execKsa_accepted (by decide), ?_, ?_, trivial⟩
  · rw [decode_eq_of_legal (i := .xform 0x42) (by decide)]; intro h; cases h
  · rw [decode_eq_of_legal (i := .xform 0x42) (by decide)]; intro h; cases h

end Sys2Proof.Tests
end

namespace Sys2Proof.Machine

/-! ### Rejected and accepted commands (R140, R147) -/

/-- The three ways a CMD write is rejected, each with its own error (R142, R143, R144). -/
theorem rejection_eq_some_iff {w : Word} {s : State} {e : CommandError} :
    rejection w s = some e ↔
      (∃ d, decode w = .error d ∧ e = .illegalCommand) ∨
      (decode w = .ok .ksa ∧ s.KEYLEN = 0#9 ∧ e = .invalidKey) ∨
      (∃ b, decode w = .ok (.xform b) ∧ s.VALID = false ∧ e = .notScheduled) := by
  unfold rejection
  cases decode w with
  | error d => simp [eq_comm (a := e)]
  | ok i => cases i <;> simp [eq_comm (a := e)]

/-- Every word that is not rejected decodes to a command (R140). -/
theorem decode_eq_ok_of_rejection_eq_none {w : Word} {s : State} (h : rejection w s = none) :
    ∃ i, decode w = .ok i := by
  cases hd : decode w with
  | error d => simp [rejection_eq_some_iff.mpr (.inl ⟨d, hd, rfl⟩)] at h
  | ok i => exact ⟨i, rfl⟩

/-- A rejected command writes its code into ERR and nothing else of the block (R13, R140, R148). -/
theorem issueCommand_of_rejection_eq_some {w : Word} {s : State} {e : CommandError} (h : rejection w s = some e) :
    issueCommand w s = .next { s with ERR := errorCode e, cmdIndex := s.cmdIndex + 1 } := by
  rcases rejection_eq_some_iff.mp h with ⟨d, hd, rfl⟩ | ⟨hd, hk, rfl⟩ | ⟨b, hd, hv, rfl⟩
  · exact issueCommand_error hd s
  · exact (issueCommand_ok hd s).trans (execKsa_empty (s := s.countCommand) hk)
  · exact (issueCommand_ok hd s).trans (execXform_unscheduled (s := s.countCommand) hv b)

/-- Settles O28, by the three ways a command is rejected and the execution of every word that decodes. -/
theorem rejectedCommandWritesOnlyErr : Obligations.RejectedCommandWritesOnlyErr := by
  refine ⟨rfl, rfl, rfl, fun w s => ⟨fun _ h => issueCommand_of_rejection_eq_some h, fun h => ?_⟩⟩
  obtain ⟨i, hi⟩ := decode_eq_ok_of_rejection_eq_none h
  exact ⟨i, hi, issueCommand_ok hi s⟩

end Sys2Proof.Machine

namespace Sys2Proof

/-! ### The decoded command's operands (R63, R69) -/

/-- Every command a word decodes to is well-formed; only KEYLEN's operand has a range its type does not say (R82). -/
theorem decode_wf {w : Word} {i : Instr} (h : decode w = .ok i) : i.wf = true := by
  cases i with
  | keylen len =>
    unfold decode at h
    repeat' split at h
    all_goals cases h
    case _ hle => exact decide_eq_true hle
  | nop | keywr _ _ | ksa | xform _ | sread _ | cread _ | zero | clrerr => rfl

end Sys2Proof

namespace Sys2Proof.Machine

/-! ### What one interaction and one step can do -/

/-- A step with an interaction to come performs it (R174). -/
theorem step_of_pending {s : State} {a : HostAction} {rest : List HostAction} (h : s.pending = a :: rest) :
    step s = perform a { s with pending := rest } := by
  simp [step, performNext, h]

/-- A read with a next state only records the value it returns (R53). -/
theorem perform_read {o : BitVec 4} {n : Nat} {s t : State} (h : perform (.read o n) s = .next t) :
    t = s.recordRead (registerValue o s) := by
  rcases perform_cases h with ⟨o', ha, ht⟩ | ⟨w, ha, -⟩ | ⟨o', w, ha, -⟩ | ⟨ha, -⟩ | ⟨w, ha, -⟩ <;> cases ha
  exact ht

/-- A write to any register but CMD changes nothing (R49). -/
theorem perform_write_ignored {o : BitVec 4} {n : Nat} {v : Word} {s t : State} (ho : o ≠ 0x0#4)
    (h : perform (.write o n v) s = .next t) : t = s := by
  rcases perform_cases h with ⟨o', ha, -⟩ | ⟨w, ha, -⟩ | ⟨o', w, ha, ht⟩ | ⟨ha, -⟩ | ⟨w, ha, -⟩ <;> cases ha
  · exact absurd rfl ho
  · exact ht

/-- A step with a next state, by what it does to the block: nothing, the rejection of an illegal word, a command, or a reset. -/
theorem step_block_cases {s t : State} (h : step s = .next t) :
    (∃ n p r, t = { s with cmdIndex := n, pending := p, reads := r }) ∨
    (∃ w rest d, s.pending = commandWrite w :: rest ∧ decode w = .error d ∧
      t = { s with ERR := 3#4, cmdIndex := s.cmdIndex + 1, pending := rest }) ∨
    (∃ w rest i, s.pending = commandWrite w :: rest ∧ decode w = .ok i ∧
      exec i { s with cmdIndex := s.cmdIndex + 1, pending := rest } = .next t) ∨
    (∃ a rest n p r, s.pending = a :: rest ∧ (a = .reset ∨ ∃ w, a = .resetDuring w) ∧
      t = { State.reset with cmdIndex := n, pending := p, reads := r }) := by
  rcases step_cases h with ⟨-, rfl⟩ | ⟨a, rest, hp, ha⟩
  · exact .inl ⟨_, _, _, rfl⟩
  rcases perform_cases ha with ⟨o, -, rfl⟩ | ⟨w, rfl, hw⟩ | ⟨o, w, -, rfl⟩ | ⟨rfl, rfl⟩ | ⟨w, rfl, rfl⟩
  · exact .inl ⟨_, _, _, rfl⟩
  · cases hd : decode w with
    | error d =>
      rw [issueCommand_error hd] at hw
      exact .inr (.inl ⟨w, rest, d, hp, hd, (Host.Outcome.next.inj hw).symm⟩)
    | ok i =>
      rw [issueCommand_ok hd] at hw
      exact .inr (.inr (.inl ⟨w, rest, i, hp, hd, hw⟩))
  · exact .inl ⟨_, _, _, rfl⟩
  · exact .inr (.inr (.inr ⟨_, rest, _, _, _, hp, .inl rfl, rfl⟩))
  · exact .inr (.inr (.inr ⟨_, rest, _, _, _, hp, .inr ⟨w, rfl⟩, rfl⟩))

/-! ### Invariants: a property of the block that every command keeps holds of every run -/

/-- What does not depend on the host's fields, holds at reset and is kept by every decoded command and by the rejection of an
illegal word, every step keeps. -/
theorem step_keeps {P : State → Prop}
    (host : ∀ s n p r, P s → P { s with cmdIndex := n, pending := p, reads := r })
    (illegal : ∀ s, P s → P { s with ERR := 3#4 })
    (command : ∀ w i s t, decode w = .ok i → P s → exec i s = .next t → P t)
    (reset : P State.reset) {s t : State} (hs : P s) (h : step s = .next t) : P t := by
  rcases step_block_cases h with ⟨n, p, r, rfl⟩ | ⟨w, rest, d, -, -, rfl⟩ | ⟨w, rest, i, -, hd, hx⟩ |
    ⟨a, rest, n, p, r, -, -, rfl⟩
  · exact host s n p r hs
  · exact host _ _ _ _ (illegal s hs)
  · exact command w i _ t hd (host s _ _ _ hs) hx
  · exact host _ n p r reset

/-- What every step of a machine keeps, every run keeps. -/
theorem run_keeps {M : Host.Core} {P : M.State → Prop} (hstep : ∀ {s t : M.State}, P s → M.step s = .next t → P t)
    {k : Nat} {s t : M.State} (hs : P s) (h : M.run k s = .next t) : P t := by
  induction k generalizing s with
  | zero => exact Host.Outcome.next.inj h ▸ hs
  | succ k ih =>
    unfold Host.Core.run at h
    split at h
    next s' hs' => exact ih (hstep hs hs') h
    · cases h
    · cases h

/-- The schedule of any key is a permutation (R90). -/
theorem keySchedule_bijective (K : Memory) (L : Nat) : Function.Bijective (keySchedule K L).read := by
  have hid : Function.Bijective Memory.identity.read := by
    rw [show Memory.identity.read = id from funext Memory.read_identity]
    exact Function.bijective_id
  exact keySchedule_keeps (P := fun m => Function.Bijective m.read) (fun _ a b hm => Memory.swap_bijective hm a b) hid K L

/-- KSA schedules a permutation, XFORM swaps two entries of one, ZERO clears VALID, and no other command writes S (R33). -/
theorem exec_keeps_permutationHeld {i : Instr} {s t : State} (hs : s.permutationHeld) (h : exec i s = .next t) :
    t.permutationHeld :=
  exec_elim (P := fun _ t => t.permutationHeld)
    (nop := hs) (keywr := fun _ _ => hs) (keylen := fun _ => hs) (ksaRejected := fun _ => hs)
    (ksa := fun _ _ => keySchedule_bijective _ _)
    (xformRejected := fun _ _ => hs)
    (xform := fun _ hv _ => Memory.swap_bijective (hs hv) _ _)
    (sread := fun _ => hs) (cread := fun _ => hs)
    (zero := fun hv => nomatch hv)
    (clrerr := hs) h

/-- While VALID is 0, SREAD and CREAD copy a zero and XFORM is rejected; KSA sets VALID (R121). -/
theorem exec_keeps_zeroWhenUnscheduled {i : Instr} {s t : State} (hs : s.zeroWhenUnscheduled) (h : exec i s = .next t) :
    t.zeroWhenUnscheduled := by
  refine exec_elim (P := fun _ t => t.zeroWhenUnscheduled)
    (nop := hs) (keywr := fun _ _ => hs) (keylen := fun _ => hs) (ksaRejected := fun _ => hs)
    (ksa := fun _ hv => nomatch hv)
    (xformRejected := fun _ _ => hs)
    (xform := fun _ hv hf => absurd (hv.symm.trans hf) Bool.noConfusion)
    (sread := fun a hf => ?_) (cread := fun c hf => ?_)
    (zero := fun _ => ⟨Memory.read_nil, rfl, rfl, rfl⟩)
    (clrerr := hs) h
  · obtain ⟨hS, hI, hJ, -⟩ := hs hf
    exact ⟨hS, hI, hJ, hS a⟩
  · obtain ⟨hS, hI, hJ, -⟩ := hs hf
    exact ⟨hS, hI, hJ, by cases c <;> assumption⟩

/-- Only KEYLEN writes a nonzero key length, and no command writes an error code above 3 (R27, R141). -/
theorem exec_keeps_legalFields {i : Instr} {s t : State} (hi : i.wf = true) (hs : s.legalFields) (h : exec i s = .next t) :
    t.legalFields := by
  obtain ⟨hlen, herr⟩ := hs
  exact exec_elim (P := fun i t => i.wf = true → t.legalFields)
    (nop := fun _ => ⟨hlen, herr⟩) (keywr := fun _ _ _ => ⟨hlen, herr⟩)
    (keylen := fun _ hl => ⟨of_decide_eq_true hl, herr⟩)
    (ksaRejected := fun _ _ => ⟨hlen, errorCode_le .invalidKey⟩) (ksa := fun _ _ => ⟨hlen, herr⟩)
    (xformRejected := fun _ _ _ => ⟨hlen, errorCode_le .notScheduled⟩) (xform := fun _ _ _ => ⟨hlen, herr⟩)
    (sread := fun _ _ => ⟨hlen, herr⟩) (cread := fun _ _ => ⟨hlen, herr⟩)
    (zero := fun _ => ⟨Nat.zero_le _, herr⟩) (clrerr := fun _ => ⟨hlen, Nat.zero_le _⟩) h hi

theorem reset_permutationHeld : State.reset.permutationHeld := fun hv => nomatch hv

theorem reset_zeroWhenUnscheduled : State.reset.zeroWhenUnscheduled := fun _ => ⟨Memory.read_nil, rfl, rfl, rfl⟩

theorem reset_legalFields : State.reset.legalFields := ⟨Nat.zero_le _, Nat.zero_le _⟩

theorem step_keeps_permutationHeld {s t : State} (hs : s.permutationHeld) (h : step s = .next t) : t.permutationHeld :=
  step_keeps (host := fun _ _ _ _ hs => hs) (illegal := fun _ hs => hs)
    (command := fun _ _ _ _ _ => exec_keeps_permutationHeld) (reset := reset_permutationHeld) hs h

theorem step_keeps_zeroWhenUnscheduled {s t : State} (hs : s.zeroWhenUnscheduled) (h : step s = .next t) :
    t.zeroWhenUnscheduled :=
  step_keeps (host := fun _ _ _ _ hs => hs) (illegal := fun _ hs => hs)
    (command := fun _ _ _ _ _ => exec_keeps_zeroWhenUnscheduled) (reset := reset_zeroWhenUnscheduled) hs h

theorem step_keeps_legalFields {s t : State} (hs : s.legalFields) (h : step s = .next t) : t.legalFields :=
  step_keeps (host := fun _ _ _ _ hs => hs) (illegal := fun _ ⟨hlen, _⟩ => ⟨hlen, errorCode_le .illegalCommand⟩)
    (command := fun _ _ _ _ hd => exec_keeps_legalFields (decode_wf hd)) (reset := reset_legalFields) hs h

/-- Settles O26: each of the three properties holds at reset, and every step keeps it. -/
theorem everyRunMeetsInvariants : Obligations.EveryRunMeetsInvariants := by
  intro actions k t h
  have perm : (startRun actions).permutationHeld := reset_permutationHeld
  have zero : (startRun actions).zeroWhenUnscheduled := reset_zeroWhenUnscheduled
  have legal : (startRun actions).legalFields := reset_legalFields
  exact ⟨run_keeps (M := core) step_keeps_permutationHeld perm h, run_keeps (M := core) step_keeps_zeroWhenUnscheduled zero h,
    run_keeps (M := core) step_keeps_legalFields legal h⟩

/-! ### Which commands write ERR, VALID and DOUT, and that none writes the command index -/

/-- ERR after a command, by R30: the code of a rejection, 0 after CLRERR, and otherwise what it was. -/
def errAfter (s : State) : Instr → BitVec 4
  | .ksa => if s.KEYLEN = 0#9 then 1#4 else s.ERR
  | .xform _ => if s.VALID = false then 2#4 else s.ERR
  | .clrerr => 0#4
  | .nop | .keywr _ _ | .keylen _ | .sread _ | .cread _ | .zero => s.ERR

theorem exec_ERR {i : Instr} {s t : State} (h : exec i s = .next t) : t.ERR = errAfter s i :=
  exec_elim (P := fun i t => t.ERR = errAfter s i)
    (nop := rfl) (keywr := fun _ _ => rfl) (keylen := fun _ => rfl)
    (ksaRejected := fun hk => (if_pos hk).symm) (ksa := fun hk => (if_neg hk).symm)
    (xformRejected := fun _ hv => (if_pos hv).symm) (xform := fun _ hv => (if_neg (by simp [hv])).symm)
    (sread := fun _ => rfl) (cread := fun _ => rfl) (zero := rfl) (clrerr := rfl) h

/-- A command that changes VALID is an accepted KSA, which sets it, or ZERO, which clears it (R29). -/
theorem exec_VALID_of_ne {i : Instr} {s t : State} (h : exec i s = .next t) (hne : t.VALID ≠ s.VALID) :
    (i = .ksa ∧ s.KEYLEN ≠ 0#9 ∧ t.VALID = true) ∨ (i = .zero ∧ t.VALID = false) :=
  exec_elim (P := fun i t => t.VALID ≠ s.VALID →
      (i = .ksa ∧ s.KEYLEN ≠ 0#9 ∧ t.VALID = true) ∨ (i = .zero ∧ t.VALID = false))
    (nop := absurd rfl) (keywr := fun _ _ => absurd rfl) (keylen := fun _ => absurd rfl)
    (ksaRejected := fun _ => absurd rfl) (ksa := fun hk _ => .inl ⟨rfl, hk, rfl⟩)
    (xformRejected := fun _ _ => absurd rfl) (xform := fun _ _ => absurd rfl)
    (sread := fun _ => absurd rfl) (cread := fun _ => absurd rfl)
    (zero := fun _ => .inr ⟨rfl, rfl⟩) (clrerr := absurd rfl) h hne

/-- A command that changes DOUT is an accepted XFORM, an SREAD, a CREAD or ZERO (R31). -/
theorem exec_DOUT_of_ne {i : Instr} {s t : State} (h : exec i s = .next t) (hne : t.DOUT ≠ s.DOUT) :
    (∃ b, i = .xform b ∧ s.VALID = true) ∨ (∃ n, i = .sread n) ∨ (∃ c, i = .cread c) ∨ i = .zero :=
  exec_elim (P := fun i t => t.DOUT ≠ s.DOUT →
      (∃ b, i = .xform b ∧ s.VALID = true) ∨ (∃ n, i = .sread n) ∨ (∃ c, i = .cread c) ∨ i = .zero)
    (nop := absurd rfl) (keywr := fun _ _ => absurd rfl) (keylen := fun _ => absurd rfl)
    (ksaRejected := fun _ => absurd rfl) (ksa := fun _ => absurd rfl)
    (xformRejected := fun _ _ => absurd rfl) (xform := fun b hv _ => .inl ⟨b, rfl, hv⟩)
    (sread := fun n _ => .inr (.inl ⟨n, rfl⟩)) (cread := fun c _ => .inr (.inr (.inl ⟨c, rfl⟩)))
    (zero := fun _ => .inr (.inr (.inr rfl))) (clrerr := absurd rfl) h hne

/-- The command index is the host's own: the write that issues a command advances it, the command does not (R21). -/
theorem exec_cmdIndex {i : Instr} {s t : State} (h : exec i s = .next t) : t.cmdIndex = s.cmdIndex :=
  exec_elim (P := fun _ t => t.cmdIndex = s.cmdIndex)
    (nop := rfl) (keywr := fun _ _ => rfl) (keylen := fun _ => rfl) (ksaRejected := fun _ => rfl) (ksa := fun _ => rfl)
    (xformRejected := fun _ _ => rfl) (xform := fun _ _ => rfl) (sread := fun _ => rfl) (cread := fun _ => rfl)
    (zero := rfl) (clrerr := rfl) h

theorem issueCommand_cmdIndex {w : Word} {s t : State} (h : issueCommand w s = .next t) : t.cmdIndex = s.cmdIndex + 1 := by
  cases hd : decode w with
  | error d =>
    rw [issueCommand_error hd] at h
    exact Host.Outcome.next.inj h ▸ rfl
  | ok i =>
    rw [issueCommand_ok hd] at h
    exact exec_cmdIndex h

/-- A step that changes VALID is a CMD write of an accepted KSA or of a ZERO, or a reset (R29). -/
theorem step_VALID_of_ne {s t : State} (h : step s = .next t) (hne : t.VALID ≠ s.VALID) :
    (t.VALID = true ∧ s.KEYLEN ≠ 0#9 ∧ ∃ w rest, s.pending = .write 0x0#4 4 w :: rest ∧ decode w = .ok .ksa) ∨
    (t.VALID = false ∧ ∃ a rest, s.pending = a :: rest ∧
      (a = .reset ∨ (∃ w, a = .resetDuring w) ∨ ∃ w, a = .write 0x0#4 4 w ∧ decode w = .ok .zero)) := by
  rcases step_block_cases h with ⟨n, p, r, rfl⟩ | ⟨w, rest, d, -, -, rfl⟩ | ⟨w, rest, i, hp, hd, hx⟩ |
    ⟨a, rest, n, p, r, hp, ha, rfl⟩
  · exact absurd rfl hne
  · exact absurd rfl hne
  · rcases exec_VALID_of_ne hx hne with ⟨rfl, hk, hv⟩ | ⟨rfl, hv⟩
    · exact .inl ⟨hv, hk, w, rest, hp, hd⟩
    · exact .inr ⟨hv, _, rest, hp, .inr (.inr ⟨w, rfl, hd⟩)⟩
  · exact .inr ⟨rfl, a, rest, hp, ha.imp_right .inl⟩

/-- A step that changes DOUT is a reset or a CMD write of an accepted XFORM, an SREAD, a CREAD or a ZERO (R31). -/
theorem step_DOUT_of_ne {s t : State} (h : step s = .next t) (hne : t.DOUT ≠ s.DOUT) :
    ∃ a rest, s.pending = a :: rest ∧
      (a = .reset ∨ (∃ w, a = .resetDuring w) ∨ ∃ w i, a = .write 0x0#4 4 w ∧ decode w = .ok i ∧
        ((∃ b, i = .xform b ∧ s.VALID = true) ∨ (∃ n, i = .sread n) ∨ (∃ c, i = .cread c) ∨ i = .zero)) := by
  rcases step_block_cases h with ⟨n, p, r, rfl⟩ | ⟨w, rest, d, -, -, rfl⟩ | ⟨w, rest, i, hp, hd, hx⟩ |
    ⟨a, rest, n, p, r, hp, ha, rfl⟩
  · exact absurd rfl hne
  · exact absurd rfl hne
  · have hi := exec_DOUT_of_ne hx hne
    exact ⟨_, rest, hp, .inr (.inr ⟨w, i, rfl, hd, hi⟩)⟩
  · exact ⟨a, rest, hp, ha.imp_right .inl⟩

/-- Settles O29, by ERR after each command and the rejection of every word that does not decode. -/
theorem errAfterEveryCommand : Obligations.ErrAfterEveryCommand := by
  refine ⟨fun w s => ?_, State.resetBlock_ERR, issueCommand_error (e := .unusedField) rfl,
    issueCommand_error (e := .unusedField) rfl⟩
  cases hd : decode w with
  | error d => exact ⟨_, issueCommand_error hd s, rfl⟩
  | ok i =>
    obtain ⟨t, ht⟩ := exec_answers_next i s.countCommand
    exact ⟨t, (issueCommand_ok hd s).trans ht, (exec_ERR ht).trans (by cases i <;> rfl)⟩

/-- Settles O30: the steps that change VALID, and what KSA, ZERO, reset and a rejected XFORM do to it. -/
theorem validChangesOnlyByKsaZeroReset : Obligations.ValidChangesOnlyByKsaZeroReset :=
  ⟨fun _ _ => step_VALID_of_ne, fun _ hk => ⟨_, execKsa_accepted hk, rfl⟩, fun _ hk => ⟨_, execKsa_empty hk, rfl⟩,
    fun _ => ⟨_, rfl, rfl⟩, State.resetBlock_VALID, fun _ b hv => execXform_unscheduled hv b⟩

/-- Settles O31: the steps that change DOUT, the value each writer puts there, and the read of DOUT. -/
theorem doutWriters : Obligations.DoutWriters :=
  ⟨fun _ _ => step_DOUT_of_ne, fun _ b hv => ⟨_, execXform_accepted hv b, rfl⟩, fun _ _ => ⟨_, rfl, rfl⟩,
    fun _ => ⟨⟨_, rfl, rfl⟩, _, rfl, rfl⟩, fun _ => ⟨_, rfl, rfl⟩, State.resetBlock_DOUT,
    fun _ _ hp => (step_of_pending hp).trans rfl⟩

/-- Settles O33: a CMD write of any word advances the command index; other writes change nothing, and reads only what was read. -/
theorem commandIndexCountsCmdWrites : Obligations.CommandIndexCountsCmdWrites := by
  refine fun s rest => ⟨fun w hp => ?_, fun o size v t ho hp h => ?_, fun o size t hp h => ?_⟩
  · obtain ⟨t, ht⟩ := issueCommand_answers_next w { s with pending := rest }
    exact ⟨t, (step_of_pending hp).trans ht, issueCommand_cmdIndex (s := { s with pending := rest }) ht⟩
  · rw [step_of_pending hp] at h
    rw [perform_write_ignored ho h]
  · rw [step_of_pending hp] at h
    rw [perform_read h, State.recordRead_cmdIndex]

/-- Settles O17: the reset state lists no cell of either RAM, and every register is given as 0. -/
theorem resetStateValues : Obligations.ResetStateValues :=
  ⟨Memory.read_nil, Memory.read_nil, rfl, rfl, rfl, rfl, rfl, rfl, rfl⟩

end Sys2Proof.Machine

namespace Sys2Proof.Machine

/-! ### The register window (R47 to R50) -/

/-- The window supports 4 bytes at a multiple of 4 and nothing else (R50). -/
theorem accessSupported_iff {o : BitVec 4} {size : Nat} : accessSupported o size = true ↔ size = 4 ∧ 4 ∣ o.toNat := by
  simp [accessSupported, Nat.dvd_iff_mod_eq_zero]

theorem perform_read_of_supported {o : BitVec 4} {size : Nat} (h : accessSupported o size = true) (s : State) :
    perform (.read o size) s = .next (s.recordRead (registerValue o s)) := if_pos h

theorem perform_write_of_supported {o : BitVec 4} {size : Nat} (h : accessSupported o size = true) (v : Word) (s : State) :
    perform (.write o size v) s = if o = 0x0#4 then issueCommand v s else .next s := if_pos h

theorem perform_read_of_unsupported {o : BitVec 4} {size : Nat} (h : ¬ accessSupported o size = true) (s : State) :
    perform (.read o size) s = .refused .unsupportedAccess := if_neg h

theorem perform_write_of_unsupported {o : BitVec 4} {size : Nat} (h : ¬ accessSupported o size = true) (v : Word) (s : State) :
    perform (.write o size v) s = .refused .unsupportedAccess := if_neg h

/-- A supported write has a next state: a command at CMD has one (R140), and any other register ignores the write (R49). -/
theorem perform_write_answers_next {o : BitVec 4} {size : Nat} (h : accessSupported o size = true) (v : Word) (s : State) :
    ∃ t, perform (.write o size v) s = .next t := by
  rw [perform_write_of_supported h]
  split
  · exact issueCommand_answers_next v s
  · exact ⟨s, rfl⟩

/-- A step whose interaction is a 32-bit read at a multiple of 4 records the register's value (R47, R48, R49). -/
theorem step_read {o : BitVec 4} {s : State} {rest : List HostAction} (ho : 4 ∣ o.toNat) (hp : s.pending = .read o 4 :: rest) :
    step s = .next { s with pending := rest, reads := s.reads ++ [registerValue o s] } :=
  (step_of_pending hp).trans (perform_read_of_supported (accessSupported_iff.mpr ⟨rfl, ho⟩) _)

/-- STATUS bit by bit: KEYLEN from bit 16 on, ERR from bit 4 on, VALID at bit 0 (R28). -/
theorem statusWord_getElem (s : State) {i : Nat} (hi : i < 32) :
    (statusWord s)[i] = (!decide (i < 16) && s.KEYLEN.getLsbD (i - 16) || !decide (i < 4) && s.ERR.getLsbD (i - 4) ||
      decide (i = 0) && s.VALID) := by
  simp [statusWord]

@[simp] theorem statusWord_bit_VALID (s : State) : (statusWord s)[0] = s.VALID := by
  simp [statusWord_getElem]

@[simp] theorem statusWord_field_ERR (s : State) : (statusWord s).extractLsb' 4 4 = s.ERR := by
  ext i hi
  simp [statusWord_getElem, show 4 + i < 16 by omega, show 4 + i < 32 by omega, BitVec.getLsbD_eq_getElem hi]

@[simp] theorem statusWord_field_KEYLEN (s : State) : (statusWord s).extractLsb' 16 9 = s.KEYLEN := by
  ext i hi
  simp [statusWord_getElem, show 16 + i < 32 by omega, BitVec.getLsbD_eq_getElem hi,
    BitVec.getLsbD_of_ge s.ERR (16 + i - 4) (by omega)]

/-- The reserved bits of STATUS are 3:1, 15:8 and 31:25, and each is 0 (R28). -/
theorem statusWord_reservedBit (s : State) {i : Nat} (hi : i < 32)
    (h : (1 ≤ i ∧ i < 4) ∨ (8 ≤ i ∧ i < 16) ∨ 25 ≤ i) : (statusWord s)[i] = false := by
  have hvalid : i ≠ 0 := by omega
  rw [statusWord_getElem]
  rcases h with ⟨-, h4⟩ | ⟨h8, h16⟩ | h25
  · simp [h4, hvalid, show i < 16 by omega]
  · simp [h16, hvalid, BitVec.getLsbD_of_ge s.ERR (i - 4) (by omega)]
  · simp [hvalid, BitVec.getLsbD_of_ge s.KEYLEN (i - 16) (by omega), BitVec.getLsbD_of_ge s.ERR (i - 4) (by omega)]

theorem statusWord_reservedField (s : State) {lo len : Nat} (hlen : lo + len ≤ 32)
    (h : (1 ≤ lo ∧ lo + len ≤ 4) ∨ (8 ≤ lo ∧ lo + len ≤ 16) ∨ 25 ≤ lo) : (statusWord s).extractLsb' lo len = 0#len := by
  ext i hi
  have hb : lo + i < 32 := by omega
  simpa [hb] using statusWord_reservedBit s hb (by omega)

/-- Settles O10, by the register a STATUS read returns and the place of each field in it. -/
theorem statusReadShowsFields : Obligations.StatusReadShowsFields := fun s _ hp =>
  ⟨statusWord s, step_read (by decide) hp, statusWord_bit_VALID s, statusWord_reservedField s (by decide) (by decide),
    statusWord_field_ERR s, statusWord_reservedField s (by decide) (by decide), statusWord_field_KEYLEN s,
    statusWord_reservedField s (by decide) (by decide)⟩

/-- Settles O11: the first read leaves DOUT and the second read to come, so the second returns the same. -/
theorem doutReadReturnsDout : Obligations.DoutReadReturnsDout := by
  intro s rest hp
  refine ⟨s.DOUT.setWidth 32, _, step_read (by decide) hp, rfl, ?_, ?_, ?_⟩
  · rw [step_read (by decide) rfl]
    simp [registerValue]
  · ext i hi
    simp [hi, show i < 32 by omega]
  · ext i hi
    simp

/-- Settles O12, by the value of the two registers read and by what a supported write does at a register other than CMD. -/
theorem otherRegistersReadZeroAndIgnoreWrites : Obligations.OtherRegistersReadZeroAndIgnoreWrites := by
  refine fun s rest => ⟨fun o ho hp => ?_, fun o v ho hp => ?_⟩
  · rcases ho with rfl | rfl <;> exact step_read (by decide) hp
  · rcases ho with rfl | rfl | rfl <;> exact (step_of_pending hp).trans (perform_write_of_supported (by decide) v _)

/-- Settles O13: the one access check decides whether a read or a write is refused. -/
theorem onlyAlignedWordAccessesSupported : Obligations.OnlyAlignedWordAccessesSupported := by
  intro s rest o size v hp
  rw [← accessSupported_iff]
  rcases hp with hp | hp <;> rw [step_of_pending hp]
  · exact ⟨fun h => perform_read_of_unsupported h _, fun h => ⟨_, perform_read_of_supported h _⟩⟩
  · exact ⟨fun h => perform_write_of_unsupported h v _, fun h => perform_write_answers_next h v _⟩

end Sys2Proof.Machine

namespace Sys2Proof

/-! ### The decoder and the encoder are inverse to each other (R66, R73) -/

/-- A well-formed command's word decodes to it: no operand bit is dropped (R60, R73). -/
theorem decode_encode {i : Instr} (hwf : i.wf = true) : decode (encode i) = .ok i := by
  cases i with
  | nop | ksa | zero | clrerr => rfl
  | keywr idx byte => simp [encode, decode_op1]
  | keylen len => simp [encode, decode_op2, show len.toNat ≤ 256 from of_decide_eq_true hwf]
  | xform byte => simp [encode, decode_op4]
  | sread idx => simp [encode, decode_op5]
  | cread sel => simp [encode, decode_op6, cursorField_le]

/-- A word that decodes is the word of its command (R66): where an arm of the decoder answers a command, its conditions are
that the fields the command does not use are 0, and the others are its operands'. -/
theorem encode_of_decode {w : Word} {i : Instr} (h : decode w = .ok i) : encode i = w := by
  have hr : rsvField w = 0#11 := by
    by_contra hr
    cases (decode_reserved hr).symm.trans h
  rw [← assemble_fields w hr]
  unfold decode at h
  repeat' split at h
  all_goals cases h
  all_goals simp_all [encode, indexField_indexOf, cursorField_cursorOf]

/-- The decoder inverts the encoder exactly on the well-formed commands (R66, R67). -/
theorem decode_eq_ok_iff {w : Word} {i : Instr} : decode w = .ok i ↔ i.wf = true ∧ encode i = w :=
  ⟨fun h => ⟨decode_wf h, encode_of_decode h⟩, fun ⟨hwf, hw⟩ => hw ▸ decode_encode hwf⟩

/-! ### The opcode map, field by field (R67) -/

/-- A word is its four fields, OP first (R60). -/
theorem fields_append (w : Word) : opField w ++ rsvField w ++ aField w ++ dField w = w := by
  unfold opField rsvField aField dField
  rw [BitVec.extractLsb'_append_extractLsb'_eq_extractLsb' (by rfl),
    BitVec.extractLsb'_append_extractLsb'_eq_extractLsb' (by rfl),
    BitVec.extractLsb'_append_extractLsb'_eq_extractLsb' (by rfl)]
  simp

/-- Words with equal fields are equal. -/
theorem word_eq_iff_fields {w v : Word} :
    w = v ↔ opField w = opField v ∧ rsvField w = rsvField v ∧ aField w = aField v ∧ dField w = dField v := by
  refine ⟨fun h => h ▸ ⟨rfl, rfl, rfl, rfl⟩, fun ⟨ho, hr, ha, hd⟩ => ?_⟩
  rw [← fields_append w, ho, hr, ha, hd, fields_append]

@[simp] theorem opField_and (w v : Word) : opField (w &&& v) = opField w &&& opField v := BitVec.extractLsb'_and
@[simp] theorem rsvField_and (w v : Word) : rsvField (w &&& v) = rsvField w &&& rsvField v := BitVec.extractLsb'_and
@[simp] theorem aField_and (w v : Word) : aField (w &&& v) = aField w &&& aField v := BitVec.extractLsb'_and
@[simp] theorem dField_and (w v : Word) : dField (w &&& v) = dField w &&& dField v := BitVec.extractLsb'_and

/-- Every row of the map fixes OP and RSV = 0 whole, and the bits of A and D it fixes are 0. -/
theorem opcodeMap_fields : ∀ r ∈ opcodeMap,
    opField r.mask = BitVec.allOnes 4 ∧ rsvField r.mask = BitVec.allOnes 11 ∧
    rsvField r.pattern = 0#11 ∧ aField r.pattern = 0#9 ∧ dField r.pattern = 0#8 := by
  decide

/-- What a row asks of a word's fields. -/
theorem rowSelects_iff_fields {r : OpcodeRow} (hr : r ∈ opcodeMap) {w : Word} :
    rowSelects r w = true ↔ rsvField w = 0#11 ∧ opField w = opField r.pattern ∧ aField w &&& aField r.mask = 0#9 ∧
      dField w &&& dField r.mask = 0#8 ∧ (aField w).toNat ≤ r.aMax := by
  obtain ⟨mop, mrsv, prsv, pa, pd⟩ := opcodeMap_fields r hr
  simp only [rowSelects, Bool.and_eq_true, decide_eq_true_eq, word_eq_iff_fields, opField_and, rsvField_and, aField_and,
    dField_and, mop, mrsv, prsv, pa, pd, BitVec.and_allOnes]
  tauto

/-- The mask of KEYWR and SREAD on A: a byte index has A[8] = 0 (R63). -/
theorem and_bit8_eq_zero_iff : ∀ {a : BitVec 9}, a &&& 0x100#9 = 0#9 ↔ a[8] = false := by decide

/-- The mask of CREAD on A: the select is 0 or 1 (R63). -/
theorem and_highBits_eq_zero_iff : ∀ {a : BitVec 9}, a &&& 0x1FE#9 = 0#9 ↔ a.toNat ≤ 1 := by decide

/-! ### What the fields of a legal word are (R62, R68, R69) -/

/-- The conditions that R62, R68 and R69 put on a word. -/
structure LegalFields (w : Word) : Prop where
  assignedOpcode : (opField w).toNat < 9
  reservedClear : rsvField w = 0#11
  unusedA : opField w ∈ [0x0#4, 0x3#4, 0x4#4, 0x7#4, 0x8#4] → aField w = 0#9
  unusedD : opField w ∈ [0x0#4, 0x2#4, 0x3#4, 0x5#4, 0x6#4, 0x7#4, 0x8#4] → dField w = 0#8
  indexRange : opField w ∈ [0x1#4, 0x5#4] → (aField w)[8] = false
  lengthRange : opField w = 0x2#4 → (aField w).toNat ≤ 256
  selectRange : opField w = 0x6#4 → (aField w).toNat ≤ 1

/-- The word of a well-formed command meets the conditions. -/
theorem legalFields_encode {i : Instr} (hwf : i.wf = true) : LegalFields (encode i) := by
  cases i with
  | keylen len =>
    have hlen : len.toNat ≤ 256 := of_decide_eq_true hwf
    constructor <;> simp [encode, hlen]
  | cread sel => constructor <;> simp [encode, cursorField_le]
  | nop | keywr _ _ | ksa | xform _ | sread _ | zero | clrerr => constructor <;> simp [encode]

/-- A word that meets the conditions decodes: they are all that its opcode's arm of the decoder asks. -/
theorem decode_of_legalFields {w : Word} (l : LegalFields w) : ∃ i, decode w = .ok i := by
  have hr := l.reservedClear
  rcases opField_cases w with h | h | h | h | h | h | h | h | h | h
  · exact ⟨_, (decode_op0 hr h).trans (if_pos ⟨l.unusedA (by simp [h]), l.unusedD (by simp [h])⟩)⟩
  · exact ⟨_, (decode_op1 hr h).trans (if_pos (l.indexRange (by simp [h])))⟩
  · exact ⟨_, (decode_op2 hr h).trans ((if_neg (not_not.mpr (l.unusedD (by simp [h])))).trans (if_pos (l.lengthRange h)))⟩
  · exact ⟨_, (decode_op3 hr h).trans (if_pos ⟨l.unusedA (by simp [h]), l.unusedD (by simp [h])⟩)⟩
  · exact ⟨_, (decode_op4 hr h).trans (if_pos (l.unusedA (by simp [h])))⟩
  · exact ⟨_, (decode_op5 hr h).trans ((if_neg (not_not.mpr (l.unusedD (by simp [h])))).trans
      (if_pos (l.indexRange (by simp [h]))))⟩
  · exact ⟨_, (decode_op6 hr h).trans ((if_neg (not_not.mpr (l.unusedD (by simp [h])))).trans (if_pos (l.selectRange h)))⟩
  · exact ⟨_, (decode_op7 hr h).trans (if_pos ⟨l.unusedA (by simp [h]), l.unusedD (by simp [h])⟩)⟩
  · exact ⟨_, (decode_op8 hr h).trans (if_pos ⟨l.unusedA (by simp [h]), l.unusedD (by simp [h])⟩)⟩
  · exact absurd l.assignedOpcode h.not_gt

/-- The conditions are exactly the decoder's (R62, R68, R69). -/
theorem exists_decode_iff_legalFields {w : Word} : (∃ i, decode w = .ok i) ↔ LegalFields w := by
  refine ⟨fun ⟨i, h⟩ => ?_, decode_of_legalFields⟩
  obtain ⟨hwf, rfl⟩ := decode_eq_ok_iff.mp h
  exact legalFields_encode hwf

/-! ### A row of the map selects the legal words of its opcode (R67) -/

/-- What a row's mask and extra condition ask of A, by the row's opcode. -/
theorem rowA_iff {r : OpcodeRow} (hr : r ∈ opcodeMap) (a : BitVec 9) :
    (a &&& aField r.mask = 0#9 ∧ a.toNat ≤ r.aMax) ↔
      (opField r.pattern ∈ [0x0#4, 0x3#4, 0x4#4, 0x7#4, 0x8#4] → a = 0#9) ∧
      (opField r.pattern ∈ [0x1#4, 0x5#4] → a[8] = false) ∧
      (opField r.pattern = 0x2#4 → a.toNat ≤ 256) ∧ (opField r.pattern = 0x6#4 → a.toNat ≤ 1) := by
  have row : ∀ r ∈ opcodeMap, (opField r.pattern, aField r.mask, r.aMax) ∈
      [(0x0#4, BitVec.allOnes 9, 511), (0x1#4, 0x100#9, 511), (0x2#4, 0#9, 256), (0x3#4, BitVec.allOnes 9, 511),
        (0x4#4, BitVec.allOnes 9, 511), (0x5#4, 0x100#9, 511), (0x6#4, 0x1FE#9, 511), (0x7#4, BitVec.allOnes 9, 511),
        (0x8#4, BitVec.allOnes 9, 511)] := by decide
  have hmax : a.toNat ≤ 511 := Nat.le_of_lt_succ a.isLt
  have h := row r hr
  simp only [List.mem_cons, Prod.mk.injEq, List.not_mem_nil, or_false] at h
  rcases h with ⟨hop, hm, hb⟩ | ⟨hop, hm, hb⟩ | ⟨hop, hm, hb⟩ | ⟨hop, hm, hb⟩ | ⟨hop, hm, hb⟩ | ⟨hop, hm, hb⟩ |
    ⟨hop, hm, hb⟩ | ⟨hop, hm, hb⟩ | ⟨hop, hm, hb⟩ <;>
    simp [hop, hm, hb, hmax, and_bit8_eq_zero_iff, and_highBits_eq_zero_iff, -BitVec.reduceAllOnes]

/-- What a row's mask asks of D, by the row's opcode. -/
theorem rowD_iff {r : OpcodeRow} (hr : r ∈ opcodeMap) (d : Byte) :
    d &&& dField r.mask = 0#8 ↔
      (opField r.pattern ∈ [0x0#4, 0x2#4, 0x3#4, 0x5#4, 0x6#4, 0x7#4, 0x8#4] → d = 0#8) := by
  have masked : ∀ r ∈ opcodeMap, dField r.mask =
      if opField r.pattern ∈ [0x0#4, 0x2#4, 0x3#4, 0x5#4, 0x6#4, 0x7#4, 0x8#4] then BitVec.allOnes 8 else 0#8 := by decide
  rw [masked r hr]
  split_ifs with h
  · simp only [BitVec.and_allOnes, h, true_imp_iff]
  · simp only [BitVec.and_zero, h, false_imp_iff]

/-- A row selects the legal words of its opcode (R67). -/
theorem rowSelects_iff_legalFields {r : OpcodeRow} (hr : r ∈ opcodeMap) {w : Word} :
    rowSelects r w = true ↔ LegalFields w ∧ opField w = opField r.pattern := by
  have assigned : ∀ r ∈ opcodeMap, (opField r.pattern).toNat < 9 := by decide
  rw [rowSelects_iff_fields hr]
  constructor
  · rintro ⟨hrsv, hop, ha, hd, hmax⟩
    obtain ⟨unused, index, length, select⟩ := (rowA_iff hr _).mp ⟨ha, hmax⟩
    have unusedD := (rowD_iff hr _).mp hd
    rw [← hop] at unused index length select unusedD
    exact ⟨⟨hop ▸ assigned r hr, hrsv, unused, unusedD, index, length, select⟩, hop⟩
  · rintro ⟨l, hop⟩
    obtain ⟨ha, hmax⟩ := (rowA_iff hr (aField w)).mpr
      (hop ▸ ⟨l.unusedA, l.indexRange, l.lengthRange, l.selectRange⟩)
    exact ⟨l.reservedClear, hop, ha, (rowD_iff hr _).mpr (hop ▸ l.unusedD), hmax⟩

/-- Every command's opcode is that of the row that bears its mnemonic (R67). -/
theorem exists_row_of_instr (i : Instr) :
    ∃ r ∈ opcodeMap, r.mnemonic = mnemonicOf i ∧ opField r.pattern = opField (encode i) := by
  cases i with
  | nop => exact Laws.EncodingFields.nop.2
  | keywr a b => exact (Laws.EncodingFields.keywr a b).2
  | keylen len => exact (Laws.EncodingFields.keylen len).2
  | ksa => exact Laws.EncodingFields.ksa.2
  | xform b => exact (Laws.EncodingFields.xform b).2
  | sread a => exact (Laws.EncodingFields.sread a).2
  | cread sel => exact (Laws.EncodingFields.cread sel).2
  | zero => exact Laws.EncodingFields.zero.2
  | clrerr => exact Laws.EncodingFields.clrerr.2

/-- Two rows of the map differ in OP, so no word is selected by both (R67). -/
theorem opcodeMap_disjoint (w : Word) :
    opcodeMap.Pairwise fun r r' => ¬ (rowSelects r w = true ∧ rowSelects r' w = true) := by
  have distinct : opcodeMap.Pairwise fun r r' => opField r.pattern ≠ opField r'.pattern := by decide
  refine distinct.imp_of_mem fun hr hr' hne ⟨h, h'⟩ => hne ?_
  exact ((rowSelects_iff_legalFields hr).mp h).2.symm.trans ((rowSelects_iff_legalFields hr').mp h').2

/-- Settles O4: the decoder and each row of the map put the same conditions on a word's fields, and the rows differ in OP. -/
theorem decoderAgreesWithOpcodeMap : Obligations.DecoderAgreesWithOpcodeMap := by
  refine fun w => ⟨fun i h => ?_, fun ⟨r, hr, h⟩ => ?_, opcodeMap_disjoint w⟩
  · obtain ⟨r, hr, hm, hop⟩ := exists_row_of_instr i
    rw [encode_of_decode h] at hop
    exact ⟨r, hr, hm, (rowSelects_iff_legalFields hr).mpr ⟨exists_decode_iff_legalFields.mp ⟨i, h⟩, hop.symm⟩⟩
  · exact decode_of_legalFields ((rowSelects_iff_legalFields hr).mp h).1

/-! ### Illegal words (R62, R68, R69) -/

/-- A word that breaks one of the conditions is rejected from every state (R144). -/
theorem wordIllegal_of_not_legalFields {w : Word} (h : ¬ LegalFields w) : Machine.wordIllegal w := by
  cases hd : decode w with
  | error e => exact Machine.issueCommand_error hd
  | ok i => exact absurd (exists_decode_iff_legalFields.mp ⟨i, hd⟩) h

/-- Settles O5: each clause breaks one condition on the fields of a legal word. -/
theorem reservedEncodingsAreIllegal : Obligations.ReservedEncodingsAreIllegal := by
  intro w
  have illegal {p : Prop} (hp : p) (h : LegalFields w → ¬ p) : Machine.wordIllegal w :=
    wordIllegal_of_not_legalFields fun l => h l hp
  exact ⟨fun h => illegal h fun l => l.assignedOpcode.not_ge,
    fun h => illegal h fun l => not_not.mpr l.reservedClear,
    fun hop h => illegal h fun l => not_not.mpr (l.unusedA hop),
    fun hop h => illegal h fun l => not_not.mpr (l.unusedD hop),
    fun hop h => illegal h fun l => Bool.eq_false_iff.mp (l.indexRange hop),
    fun hop h => illegal h fun l => (l.lengthRange hop).not_gt,
    fun hop h => illegal h fun l => (l.selectRange hop).not_gt⟩

/-! ### How many words are legal (R71) -/

/-- The words that decode to a command of this mnemonic. -/
def legalWords (m : String) : Set Word := {w | ∃ i, decode w = .ok i ∧ mnemonicOf i = m}

/-- The number of legal words of a mnemonic is the number of its operand values, where `f` gives the command of each. -/
theorem ncard_legalWords {α : Type} {m : String} (f : α → Instr) (hinj : Function.Injective f)
    (hf : ∀ i, (i.wf = true ∧ mnemonicOf i = m) ↔ ∃ x, f x = i) : (legalWords m).ncard = Nat.card α := by
  have hwf (x : α) : (f x).wf = true := ((hf _).mpr ⟨x, rfl⟩).1
  have hrange : legalWords m = Set.range fun x => encode (f x) := by
    ext w
    constructor
    · rintro ⟨i, hd, hm⟩
      obtain ⟨hi, rfl⟩ := decode_eq_ok_iff.mp hd
      obtain ⟨x, rfl⟩ := (hf i).mp ⟨hi, hm⟩
      exact ⟨x, rfl⟩
    · rintro ⟨x, rfl⟩
      exact ⟨f x, decode_encode (hwf x), ((hf _).mpr ⟨x, rfl⟩).2⟩
  have hencode : Function.Injective fun x => encode (f x) := fun x y h =>
    hinj (Except.ok.inj ((decode_encode (hwf x)).symm.trans ((congrArg decode h).trans (decode_encode (hwf y)))))
  rw [hrange, ← Set.image_univ, Set.ncard_image_of_injective _ hencode, Set.ncard_univ]

/-- There are `2 ^ n` operand values of `n` bits. -/
theorem card_bitVec (n : Nat) : Nat.card (BitVec n) = 2 ^ n :=
  (Nat.card_congr BitVec.equivFin.toEquiv).trans (Nat.card_fin _)

/-- The KEYLEN command of each legal length, 0 to 256 (R82). -/
def keylenOfFin (n : Fin 257) : Instr := .keylen (BitVec.ofNat 9 n.val)

/-- A mnemonic borne by one command has one word. -/
theorem ncard_legalWords_unit {m : String} (i : Instr) (hf : ∀ j, (j.wf = true ∧ mnemonicOf j = m) ↔ i = j) :
    (legalWords m).ncard = 1 := by
  rw [ncard_legalWords (fun _ : Unit => i) (Function.injective_of_subsingleton _) (by simpa using hf), Nat.card_unique]

theorem ncard_legalWords_keywr : (legalWords "KEYWR").ncard = 65536 := by
  rw [ncard_legalWords (fun p : Byte × Byte => Instr.keywr p.1 p.2) (fun p q h => by simpa [Prod.ext_iff] using h)
    (fun i => by cases i <;> simp [Instr.wf, mnemonicOf]), Nat.card_prod, card_bitVec]
  norm_num

theorem keylenOfFin_injective : Function.Injective keylenOfFin := by
  intro n n' h
  have := congrArg BitVec.toNat (Instr.keylen.inj h)
  simp only [BitVec.toNat_ofNat] at this
  omega

/-- The well-formed KEYLEN commands are those of the legal lengths (R69, R82). -/
theorem exists_keylenOfFin (i : Instr) : (i.wf = true ∧ mnemonicOf i = "KEYLEN") ↔ ∃ n, keylenOfFin n = i := by
  constructor
  · rintro ⟨hwf, hm⟩
    cases i with
    | keylen len => exact ⟨⟨len.toNat, Nat.lt_succ_of_le (of_decide_eq_true hwf)⟩, by simp [keylenOfFin]⟩
    | _ => simp [mnemonicOf] at hm
  · rintro ⟨n, rfl⟩
    refine ⟨decide_eq_true ?_, rfl⟩
    rw [BitVec.toNat_ofNat]
    omega

theorem ncard_legalWords_keylen : (legalWords "KEYLEN").ncard = 257 := by
  rw [ncard_legalWords keylenOfFin keylenOfFin_injective exists_keylenOfFin, Nat.card_fin]

theorem ncard_legalWords_xform : (legalWords "XFORM").ncard = 256 := by
  rw [ncard_legalWords Instr.xform (fun _ _ => Instr.xform.inj) (fun i => by cases i <;> simp [Instr.wf, mnemonicOf]),
    card_bitVec]
  norm_num

theorem ncard_legalWords_sread : (legalWords "SREAD").ncard = 256 := by
  rw [ncard_legalWords Instr.sread (fun _ _ => Instr.sread.inj) (fun i => by cases i <;> simp [Instr.wf, mnemonicOf]),
    card_bitVec]
  norm_num

theorem card_cursorSel : Nat.card CursorSel = 2 := by
  have : (Set.univ : Set CursorSel) = {.i, .j} := by ext c; cases c <;> simp
  rw [← Set.ncard_univ, this, Set.ncard_pair (by decide)]

theorem ncard_legalWords_cread : (legalWords "CREAD").ncard = 2 := by
  rw [ncard_legalWords Instr.cread (fun _ _ => Instr.cread.inj) (fun i => by cases i <;> simp [Instr.wf, mnemonicOf]),
    card_cursorSel]

/-- R71's counts per command. -/
def mnemonicCounts : List (String × Nat) :=
  [("NOP", 1), ("KEYWR", 65536), ("KEYLEN", 257), ("KSA", 1), ("XFORM", 256), ("SREAD", 256), ("CREAD", 2), ("ZERO", 1),
    ("CLRERR", 1)]

theorem ncard_legalWords_of_mem : ∀ c ∈ mnemonicCounts, (legalWords c.1).ncard = c.2 := by
  simp only [mnemonicCounts, List.forall_mem_cons]
  exact ⟨ncard_legalWords_unit .nop fun j => by cases j <;> simp [Instr.wf, mnemonicOf],
    ncard_legalWords_keywr, ncard_legalWords_keylen,
    ncard_legalWords_unit .ksa fun j => by cases j <;> simp [Instr.wf, mnemonicOf],
    ncard_legalWords_xform, ncard_legalWords_sread, ncard_legalWords_cread,
    ncard_legalWords_unit .zero fun j => by cases j <;> simp [Instr.wf, mnemonicOf],
    ncard_legalWords_unit .clrerr fun j => by cases j <;> simp [Instr.wf, mnemonicOf], List.forall_mem_nil _⟩

/-- A word decodes to at most one command, so to at most one mnemonic. -/
theorem disjoint_legalWords {m m' : String} (h : m ≠ m') : Disjoint (legalWords m) (legalWords m') := by
  refine Set.disjoint_left.mpr ?_
  rintro w ⟨i, hi, rfl⟩ ⟨j, hj, rfl⟩
  exact h (congrArg mnemonicOf (Except.ok.inj (hi.symm.trans hj)))

/-- The words of a list of different mnemonics are as many as those of each together. -/
theorem ncard_exists_legalWords {ms : List String} (h : ms.Nodup) :
    {w | ∃ m ∈ ms, w ∈ legalWords m}.ncard = (ms.map fun m => (legalWords m).ncard).sum := by
  induction ms with
  | nil => simp
  | cons m ms ih =>
    obtain ⟨hm, hms⟩ := List.nodup_cons.mp h
    have hsplit : {w | ∃ k ∈ m :: ms, w ∈ legalWords k} = legalWords m ∪ {w | ∃ k ∈ ms, w ∈ legalWords k} := by
      ext w; simp
    have hdisj : Disjoint (legalWords m) {w | ∃ k ∈ ms, w ∈ legalWords k} := by
      refine Set.disjoint_left.mpr fun w hw ⟨k, hk, hwk⟩ => ?_
      have hne : m ≠ k := fun e => hm (e ▸ hk)
      exact Set.disjoint_left.mp (disjoint_legalWords hne) hw hwk
    rw [hsplit, Set.ncard_union_eq hdisj, ih hms, List.map_cons, List.sum_cons]

/-- In all, 66311 words decode to a command (R71): each to one of the nine mnemonics. -/
theorem ncard_decoding : {w : Word | ∃ i, decode w = .ok i}.ncard = 66311 := by
  have hall : {w : Word | ∃ i, decode w = .ok i} = {w | ∃ m ∈ mnemonicCounts.map Prod.fst, w ∈ legalWords m} := by
    ext w
    refine ⟨fun ⟨i, h⟩ => ⟨mnemonicOf i, ?_, i, h, rfl⟩, fun ⟨_, _, i, h, _⟩ => ⟨i, h⟩⟩
    cases i <;> simp [mnemonicCounts, mnemonicOf]
  rw [hall, ncard_exists_legalWords (by decide), List.map_map, Function.comp_def,
    List.map_congr_left ncard_legalWords_of_mem]
  rfl

/-- Settles O6: the operand values of each command are counted, the mnemonics share no word, and the rest of the 2^32 words
decode to no command. -/
theorem legalWordCounts : Obligations.LegalWordCounts := by
  refine ⟨ncard_legalWords_of_mem, ncard_decoding, ?_⟩
  have hcompl : {w : Word | ∀ i, decode w ≠ .ok i} = {w : Word | ∃ i, decode w = .ok i}ᶜ := by
    ext w; simp
  rw [hcompl, Set.ncard_compl, ncard_decoding, card_bitVec]
  norm_num

/-! ### The example encodings of R75 -/

/-- Settles O1: the assembler and the decoder are run on each line and word of R75. -/
theorem exampleEncodingsDecode : Obligations.ExampleEncodingsDecode := by
  have illegal {w : Word} {e : DecodeError} (h : decode w = .error e) (i : Instr) : decode w ≠ .ok i := by
    simp [h]
  unfold Obligations.ExampleEncodingsDecode
  exact ⟨by decide, rfl, by decide, rfl, by decide, rfl, by decide, rfl, by decide, rfl, by decide, rfl, by decide, rfl,
    by decide, rfl, by decide, illegal (e := .operandRange) rfl, by decide, illegal (e := .operandRange) rfl,
    by decide, illegal (e := .reservedOpcode) rfl, by decide, illegal (e := .reservedField) rfl⟩

end Sys2Proof

namespace Sys2Proof.Machine

/-! ### The key scheduler: KEYWR, KEYLEN and KSA (40_key_scheduler.md) -/

/-- A word that decodes selects its command, from every state (R46, R66). -/
theorem wordSelects_of_decode {w : Word} {i : Instr} (h : decode w = .ok i) : wordSelects w i := issueCommand_ok h

/-- Settles O38, by what a write to the key RAM leaves in each entry and the decoder's arm for OP 0x1. -/
theorem keywrWritesOneKeyByte : Obligations.KeywrWritesOneKeyByte := by
  refine ⟨fun idx byte s => ⟨s.setKeyByte idx byte, rfl, Memory.read_write s.K idx byte, rfl⟩, fun w hop => ?_⟩
  obtain ⟨-, reserved, -, -, index, -, -⟩ := reservedEncodingsAreIllegal w
  refine ⟨fun ⟨hr, ha⟩ => wordSelects_of_decode ?_, fun h => ?_⟩
  · rw [decode_op1 hr hop, if_pos ha, indexOf_aField]
    rfl
  · exact h.elim reserved (index (by simp [hop]))

/-- Settles O39, by STATUS's KEYLEN field and the decoder's arm for OP 0x2. -/
theorem keylenSetsKeyLength : Obligations.KeylenSetsKeyLength := by
  refine ⟨fun len s => ⟨_, rfl, rfl, statusWord_field_KEYLEN _⟩, fun w hop => ?_⟩
  obtain ⟨-, reserved, -, unusedD, -, length, -⟩ := reservedEncodingsAreIllegal w
  refine ⟨fun ⟨hr, hd, ha⟩ => wordSelects_of_decode ?_, fun h => ?_⟩
  · rw [decode_op2 hr hop, if_neg (not_not.mpr hd), if_pos ha]
    rfl
  · exact h.elim reserved (Or.elim · (unusedD (by simp [hop])) (length hop))

/-! ### The key schedule and the source's (R84, R85) -/

/-- The RAM's swap is the source's swap of the permutation it holds (R12). -/
theorem Memory.swap_read (m : Memory) (a b : Byte) : (m.swap a b).read = sourceSwap m.read a b :=
  funext (Memory.read_swap m a b)

/-- The source's form of the permutation and the accumulator of a key schedule. -/
def sourceForm (p : Memory × Byte) : SourcePerm × Byte := (p.1.read, p.2)

/-- One iteration of KSA is one of the source's (R84, R85). -/
theorem sourceForm_ksaIteration (K : Memory) (L : Nat) (p : Memory × Byte) (n : Nat) :
    sourceForm (ksaIteration K L p n) = sourceIteration (fun n => K.read (BitVec.ofNat 8 n)) L (sourceForm p) n :=
  Prod.ext (Memory.swap_read p.1 _ _) rfl

/-- The key schedule leaves the permutation of the source's schedule, iteration by iteration from the identity (R85, R86). -/
theorem keySchedule_read (K : Memory) (L : Nat) :
    (keySchedule K L).read = sourceSchedule (fun n => K.read (BitVec.ofNat 8 n)) L := by
  have start : sourceForm (Memory.identity, 0#8) = (fun a => a, 0#8) := Prod.ext (funext Memory.read_identity) rfl
  unfold keySchedule sourceSchedule byteIndexes
  rw [← start, List.foldl_hom sourceForm (g₁ := ksaIteration K L) fun p n => (sourceForm_ksaIteration K L p n).symm,
    sourceForm]

/-- Settles O40, by the source's form of the schedule and the decoder's arm for OP 0x3. -/
theorem ksaRunsTheSourceSchedule : Obligations.KsaRunsTheSourceSchedule := by
  refine ⟨fun s hk => ⟨_, execKsa_accepted hk, congrFun (keySchedule_read s.K _), rfl⟩, fun s hk => execKsa_empty hk,
    fun w hop => ?_⟩
  obtain ⟨-, reserved, unusedA, unusedD, -, -, -⟩ := reservedEncodingsAreIllegal w
  refine ⟨fun ⟨hr, hfields⟩ => wordSelects_of_decode ?_, fun h => ?_⟩
  · rw [decode_op3 hr hop, if_pos hfields]
  · exact h.elim reserved (Or.elim · (unusedA (by simp [hop])) (unusedD (by simp [hop])))

/-- Settles O51, by the permutation that every schedule is. -/
theorem ksaYieldsPermutation : Obligations.KsaYieldsPermutation := fun s hk =>
  ⟨_, execKsa_accepted hk, keySchedule_bijective s.K _, rfl, rfl⟩

/-! ### What of the key a schedule reads (R88, R89) -/

/-- A schedule reads no more of the key than the 256 bytes its iterations add (R85, R89). -/
theorem keySchedule_congr {K K' : Memory} {L L' : Nat} (h : ∀ n < 256, keyByte K L n = keyByte K' L' n) :
    keySchedule K L = keySchedule K' L' := by
  have iteration : ∀ p, ∀ n ∈ byteIndexes, ksaIteration K L p n = ksaIteration K' L' p n := fun p n hn => by
    simp only [ksaIteration, h n (List.mem_range.mp hn)]
  unfold keySchedule
  rw [List.foldl_ext _ _ _ iteration]

/-- The same of the source's schedule (R84). -/
theorem sourceSchedule_congr {key key' : Nat → Byte} {L L' : Nat} (h : ∀ n < 256, key (n % L) = key' (n % L')) :
    sourceSchedule key L = sourceSchedule key' L' := by
  have iteration : ∀ x, ∀ n ∈ List.range 256, sourceIteration key L x n = sourceIteration key' L' x n := fun x n hn => by
    simp only [sourceIteration, h n (List.mem_range.mp hn)]
  unfold sourceSchedule
  rw [List.foldl_ext _ _ _ iteration]

/-- An accepted key has a byte: its length is above 0 (R142). -/
theorem keylen_pos {len : BitVec 9} (h : len ≠ 0#9) : 0 < len.toNat :=
  Nat.pos_of_ne_zero fun h0 => h (BitVec.eq_of_toNat_eq h0)

/-- States with the same key have the same schedule: every key byte added is one of `K[0..KEYLEN-1]` (R42, R88). -/
theorem keySchedule_eq_of_sameKey {s s' : State} (h : sameKey s s') :
    keySchedule s.K s.KEYLEN.toNat = keySchedule s'.K s'.KEYLEN.toNat := by
  obtain ⟨hk, hlen, hbytes⟩ := h
  rw [hlen]
  exact keySchedule_congr fun n _ => hbytes _ (Nat.mod_lt n (keylen_pos hk))

/-- Settles O48: the one thing that an accepted KSA takes from the state it starts in is the schedule of the key. -/
theorem ksaDependsOnlyOnTheKey : Obligations.KsaDependsOnlyOnTheKey := fun s s' h => by
  have ⟨hk, hlen, _⟩ := h
  have hk' : s'.KEYLEN ≠ 0#9 := hlen ▸ hk
  exact ⟨_, _, execKsa_accepted hk, execKsa_accepted hk', keySchedule_eq_of_sameKey h, rfl, rfl, rfl⟩

/-! ### Loading a key and scheduling it: setkey (R74, R87) -/

/-- Commands after a run that has a next state go on from there. -/
theorem execAll_append_of_next {is : List Instr} {s t : State} (h : execAll is s = .next t) (js : List Instr) :
    execAll (is ++ js) s = execAll js t := by
  induction is generalizing s with
  | nil => exact Host.Outcome.next.inj h ▸ rfl
  | cons i is ih =>
    obtain ⟨u, hu⟩ := exec_answers_next i s
    simp only [List.cons_append, execAll, hu] at h ⊢
    exact ih h

theorem execAll_singleton (i : Instr) (s : State) : execAll [i] s = exec i s := by
  obtain ⟨t, ht⟩ := exec_answers_next i s
  simp only [execAll, ht]

/-- The KEYWR commands of a setkey put each byte of the key at its position, up to 256 bytes, and change nothing but K (R80). -/
theorem execAll_keywrs (key : List Byte) (s : State) (h : key.length ≤ 256) :
    ∃ K, execAll (key.mapIdx fun n b => .keywr (BitVec.ofNat 8 n) b) s = .next { s with K := K } ∧
      ∀ n < key.length, K.read (BitVec.ofNat 8 n) = key.getD n 0#8 := by
  induction key using List.reverseRecOn with
  | nil => exact ⟨s.K, rfl, fun n hn => absurd hn n.not_lt_zero⟩
  | append_singleton key b ih =>
    rw [List.length_append, List.length_singleton] at h
    obtain ⟨K, hrun, hK⟩ := ih (by omega)
    refine ⟨K.write (BitVec.ofNat 8 key.length) b, ?_, fun n hn => ?_⟩
    · rw [List.mapIdx_append_one, execAll_append_of_next hrun]
      rfl
    · rw [List.length_append, List.length_singleton] at hn
      have same : BitVec.ofNat 8 n = BitVec.ofNat 8 key.length ↔ n = key.length := by
        rw [← BitVec.toNat_inj, BitVec.toNat_ofNat, BitVec.toNat_ofNat]
        omega
      simp only [Memory.read_write, same]
      split_ifs with hlast
      · simp [hlast]
      · have hlt : n < key.length := by omega
        rw [hK n hlt, List.getD_append _ _ _ _ hlt]

/-- A setkey of 1 to 256 bytes leaves the source's schedule of the key; ERR and DOUT stay (R74, R85). -/
theorem execAll_setkey {key : List Byte} (hne : key ≠ []) (h : key.length ≤ 256) (s : State) :
    ∃ t, execAll (setkeyCommands key) s = .next t ∧
      t.S.read = sourceSchedule (fun n => key.getD n 0#8) key.length ∧
      t.KEYLEN.toNat = key.length ∧ t.I = 0#8 ∧ t.J = 0#8 ∧ t.VALID = true ∧ t.ERR = s.ERR ∧ t.DOUT = s.DOUT := by
  have hpos : 0 < key.length := List.length_pos_of_ne_nil hne
  have hlen : (BitVec.ofNat 9 key.length).toNat = key.length := by
    rw [BitVec.toNat_ofNat]
    omega
  have hk : BitVec.ofNat 9 key.length ≠ 0#9 := fun h0 => by
    rw [h0] at hlen
    exact hpos.ne hlen
  obtain ⟨K, hrun, hK⟩ := execAll_keywrs key s h
  have run : execAll (setkeyCommands key) s = execKsa { s with K := K, KEYLEN := BitVec.ofNat 9 key.length } :=
    (execAll_append_of_next hrun _).trans (execAll_singleton .ksa _)
  refine ⟨_, run.trans (execKsa_accepted hk), ?_, hlen, rfl, rfl, rfl, rfl, rfl⟩
  rw [keySchedule_read, hlen]
  exact sourceSchedule_congr fun n _ => hK _ (Nat.mod_lt n hpos)

/-- The key byte that an iteration adds is one of the key's first 256 and stands in these at the iteration's own index (R87). -/
theorem getD_take_mod (key : List Byte) {n : Nat} (hn : n < 256) :
    (key.take 256).getD (n % (key.take 256).length) 0#8 = key.getD (n % key.length) 0#8 := by
  have hindex : n % (key.take 256).length = n % key.length := by
    rcases Nat.le_total key.length 256 with hle | hge
    · rw [List.take_of_length_le hle]
    · rw [List.length_take_of_le hge, Nat.mod_eq_of_lt hn, Nat.mod_eq_of_lt (by omega)]
  have hlt : n % key.length < 256 := (Nat.mod_le _ _).trans_lt hn
  rw [hindex]
  simp [hlt]

/-- Settles O50: no iteration adds a key byte beyond the first 256, so these have the schedule of the whole key. -/
theorem setkeySchedulesAnyKey : Obligations.SetkeySchedulesAnyKey := by
  intro key s hne
  have hlen : (key.take 256).length = min key.length 256 := by
    rw [List.length_take, Nat.min_comm]
  have hne' : key.take 256 ≠ [] := by simpa using hne
  obtain ⟨t, hrun, hS, hkeylen, hrest⟩ := execAll_setkey hne' (List.length_take_le 256 key) s
  have hschedule : t.S.read = sourceSchedule (fun n => key.getD n 0#8) key.length :=
    hS.trans (sourceSchedule_congr fun _ => getD_take_mod key)
  exact ⟨t, hrun, congrFun hschedule, hkeylen.trans hlen, hrest⟩

end Sys2Proof.Machine

namespace Sys2Proof.Machine

/-! ### The keystream transformer: XFORM (41_keystream.md) -/

/-- The state that an accepted XFORM leaves (R100). -/
def State.afterXform (s : State) (b : Byte) : State := s.advanceCursors.setDout (b ^^^ s.advanceCursors.keystreamByte)

theorem exec_xform {s : State} (hv : s.VALID = true) (b : Byte) : exec (.xform b) s = .next (s.afterXform b) :=
  execXform_accepted hv b

@[simp] theorem State.afterXform_I (s : State) (b : Byte) : (s.afterXform b).I = s.I + 1#8 := rfl
@[simp] theorem State.afterXform_VALID (s : State) (b : Byte) : (s.afterXform b).VALID = s.VALID := rfl
@[simp] theorem State.afterXform_DOUT (s : State) (b : Byte) :
    (s.afterXform b).DOUT = b ^^^ s.advanceCursors.keystreamByte := rfl

/-- XFORM reorders the entries of S by the swap of those at the new I and J (R108). -/
theorem State.read_afterXform (s : State) (b a : Byte) :
    (s.afterXform b).S.read a = s.S.read (Equiv.swap (s.afterXform b).I (s.afterXform b).J a) :=
  Memory.read_swap_eq s.S _ _ a

/-- Settles O41, by the swap that XFORM makes and the decoder's arm for OP 0x4. -/
theorem xformPerformsOneKeystreamStep : Obligations.XformPerformsOneKeystreamStep := by
  refine ⟨fun byte s hv => ⟨s.afterXform byte, exec_xform hv byte, rfl, rfl, ?_, ?_, fun a hI hJ => ?_, rfl, rfl⟩,
    fun byte s hv => execXform_unscheduled hv byte, fun w hop => ?_⟩
  · rw [State.read_afterXform, Equiv.swap_apply_left]
  · rw [State.read_afterXform, Equiv.swap_apply_right]
  · rw [State.read_afterXform, Equiv.swap_apply_of_ne_of_ne hI hJ]
  · obtain ⟨-, reserved, unusedA, -, -, -, -⟩ := reservedEncodingsAreIllegal w
    refine ⟨fun ⟨hr, ha⟩ => wordSelects_of_decode ?_, fun h => ?_⟩
    · rw [decode_op4 hr hop, if_pos ha]
      rfl
    · exact h.elim reserved (unusedA (by simp [hop]))

/-- Settles O52: the swap is of the entries at the new I and J. -/
theorem xformKeepsPermutation : Obligations.XformKeepsPermutation := fun byte s hv =>
  ⟨s.afterXform byte, exec_xform hv byte, ⟨_, _, s.read_afterXform byte⟩, fun h => Memory.swap_bijective h _ _⟩

/-! ### The transform, byte by byte (R103) -/

/-- The transform of a byte and more is what the byte's XFORM puts into DOUT, and the transform of the rest from its state. -/
theorem transform_cons_of_exec {b : Byte} {s t : State} (h : exec (.xform b) s = .next t) (bs : List Byte) :
    transform (b :: bs) s = (t.DOUT :: (transform bs t).1, (transform bs t).2) := by
  simp only [transform, h]

/-- The same where VALID is 1, and so XFORM is accepted. -/
theorem transform_cons {s : State} (hv : s.VALID = true) (b : Byte) (bs : List Byte) :
    transform (b :: bs) s =
      ((s.afterXform b).DOUT :: (transform bs (s.afterXform b)).1, (transform bs (s.afterXform b)).2) :=
  transform_cons_of_exec (exec_xform hv b) bs

theorem length_transform (bs : List Byte) (s : State) : (transform bs s).1.length = bs.length := by
  induction bs generalizing s with
  | nil => rfl
  | cons b bs ih =>
    obtain ⟨t, ht⟩ := exec_answers_next (.xform b) s
    rw [transform_cons_of_exec ht, List.length_cons, ih, List.length_cons]

/-- The transform of two buffers in a row is that of the one and then, from the state it leaves, that of the other (R107). -/
theorem transform_append (bs cs : List Byte) (s : State) :
    (transform (bs ++ cs) s).1 = (transform bs s).1 ++ (transform cs (transform bs s).2).1 := by
  induction bs generalizing s with
  | nil => rfl
  | cons b bs ih =>
    obtain ⟨t, ht⟩ := exec_answers_next (.xform b) s
    rw [List.cons_append, transform_cons_of_exec ht, transform_cons_of_exec ht, ih, List.cons_append]

theorem execAll_xbuf (bs : List Byte) (s : State) : execAll (xbufCommands bs) s = .next (transform bs s).2 := by
  induction bs generalizing s with
  | nil => rfl
  | cons b bs ih =>
    obtain ⟨t, ht⟩ := exec_answers_next (.xform b) s
    have run : execAll (xbufCommands (b :: bs)) s = execAll (xbufCommands bs) t := by
      simp only [xbufCommands, List.map_cons, execAll, ht]
    rw [run, ih, transform_cons_of_exec ht]

/-- Settles O57, by the buffer's XFORMs one by one. -/
theorem xbufIsTransform : Obligations.XbufIsTransform :=
  ⟨fun bs s _ => ⟨execAll_xbuf bs s, length_transform bs s⟩, fun _ => ⟨rfl, rfl⟩⟩

/-- The transform advances I once per byte (R100, R109). -/
theorem transform_I {s : State} (hv : s.VALID = true) (bs : List Byte) :
    (transform bs s).2.I = s.I + BitVec.ofNat 8 bs.length := by
  induction bs generalizing s with
  | nil => simp [transform]
  | cons b bs ih =>
    rw [transform_cons hv]
    calc (transform bs (s.afterXform b)).2.I
        = s.I + 1#8 + BitVec.ofNat 8 bs.length := by rw [ih ((s.afterXform_VALID b).trans hv), State.afterXform_I]
      _ = s.I + BitVec.ofNat 8 (bs.length + 1) := by rw [BitVec.add_assoc, Nat.add_comm, BitVec.ofNat_add]

/-! ### The generator: the part of the state that gives the keystream (R102) -/

/-- S, I and J, from which the keystream comes, and VALID, without which XFORM is rejected. -/
def State.generator (s : State) : Memory × Byte × Byte × Bool := (s.S, s.I, s.J, s.VALID)

theorem State.generator_eq_iff {s t : State} :
    s.generator = t.generator ↔ s.S = t.S ∧ s.I = t.I ∧ s.J = t.J ∧ s.VALID = t.VALID := by
  simp [State.generator]

/-- Equal generators admit XFORM alike, give the same keystream byte and advance alike, whatever the data (R102). -/
theorem afterXform_congr {s t : State} (h : s.generator = t.generator) (b c : Byte) :
    s.VALID = t.VALID ∧ s.advanceCursors.keystreamByte = t.advanceCursors.keystreamByte ∧
      (s.afterXform b).generator = (t.afterXform c).generator := by
  obtain ⟨hS, hI, hJ, hV⟩ := State.generator_eq_iff.mp h
  refine ⟨hV, ?_, State.generator_eq_iff.mpr ?_⟩
  · simp [State.keystreamByte, hS, hI, hJ]
  · simp [State.afterXform, hS, hI, hJ, hV]

/-- A transform from one state is the data xor the transform of zeros from any state with the same generator (R102). -/
theorem transform_eq_zipWith {s t : State} (hv : s.VALID = true) (h : s.generator = t.generator) (bs : List Byte) :
    (transform bs s).1 = List.zipWith (· ^^^ ·) bs (transform (List.replicate bs.length 0#8) t).1 := by
  induction bs generalizing s t with
  | nil => rfl
  | cons b bs ih =>
    obtain ⟨hV, hbyte, hnext⟩ := afterXform_congr h b 0#8
    rw [List.length_cons, List.replicate_succ, transform_cons hv, transform_cons (hV ▸ hv), List.zipWith_cons_cons,
      ih ((s.afterXform_VALID b).trans hv) hnext, State.afterXform_DOUT, State.afterXform_DOUT, hbyte, BitVec.zero_xor]

/-- A transform of a transform gives the buffer back where both start with the same generator (R105). -/
theorem transform_transform {s t : State} (hv : s.VALID = true) (h : s.generator = t.generator) (bs : List Byte) :
    (transform (transform bs s).1 t).1 = bs := by
  induction bs generalizing s t with
  | nil => rfl
  | cons b bs ih =>
    obtain ⟨hV, hbyte, hnext⟩ := afterXform_congr h b (s.afterXform b).DOUT
    rw [transform_cons hv, transform_cons (hV ▸ hv), ih ((s.afterXform_VALID b).trans hv) hnext, State.afterXform_DOUT,
      State.afterXform_DOUT, hbyte, BitVec.xor_assoc, BitVec.xor_self, BitVec.xor_zero]

/-- States with the same key are scheduled to the same generator (R88). -/
theorem generator_eq_of_sameKey {s s' : State} (h : sameKey s s') :
    ∃ t t', exec .ksa s = .next t ∧ exec .ksa s' = .next t' ∧ t.VALID = true ∧ t.generator = t'.generator := by
  have ⟨hk, hlen, _⟩ := h
  have hk' : s'.KEYLEN ≠ 0#9 := hlen ▸ hk
  exact ⟨_, _, execKsa_accepted hk, execKsa_accepted hk', rfl,
    State.generator_eq_iff.mpr ⟨keySchedule_eq_of_sameKey h, rfl, rfl, rfl⟩⟩

/-- Settles O53: KSA leaves one generator for one key, and that is all of the state a keystream comes from. -/
theorem keystreamDependsOnlyOnKeyAndPosition : Obligations.KeystreamDependsOnlyOnKeyAndPosition := fun _ _ h =>
  have ⟨t, t', ht, ht', hv, hg⟩ := generator_eq_of_sameKey h
  ⟨t, t', ht, ht', transform_eq_zipWith hv hg⟩

/-- Settles O54: KSA leaves one generator for one key, so each byte meets the same keystream byte twice. -/
theorem freshStatesRoundTrip : Obligations.FreshStatesRoundTrip := fun _ _ h =>
  have ⟨t, t', ht, ht', hv, hg⟩ := generator_eq_of_sameKey h
  ⟨t, t', ht, ht', transform_transform hv hg⟩

/-! ### Streams: XFORMs with other words between them (R107, R109) -/

theorem afterWord_of_issueCommand {w : Word} {s t : State} (h : issueCommand w s = .next t) : afterWord w s = t := by
  simp only [afterWord, h]

/-- No command but XFORM, ZERO and an accepted KSA touches the generator (R22). -/
theorem exec_keeps_generator {i : Instr} {s t : State} (hx : ∀ b, i ≠ .xform b) (hz : i ≠ .zero)
    (hk : i = .ksa → s.KEYLEN = 0#9) (h : exec i s = .next t) : t.generator = s.generator :=
  exec_elim (P := fun i t => (∀ b, i ≠ .xform b) → i ≠ .zero → (i = .ksa → s.KEYLEN = 0#9) → t.generator = s.generator)
    (nop := fun _ _ _ => rfl) (keywr := fun _ _ _ _ _ => rfl) (keylen := fun _ _ _ _ => rfl)
    (ksaRejected := fun _ _ _ _ => rfl) (ksa := fun hne _ _ hk => absurd (hk rfl) hne)
    (xformRejected := fun b _ hx => absurd rfl (hx b)) (xform := fun b _ hx => absurd rfl (hx b))
    (sread := fun _ _ _ _ => rfl) (cread := fun _ _ _ _ => rfl)
    (zero := fun _ hz => absurd rfl hz) (clrerr := fun _ _ _ => rfl) h hx hz hk

/-- A word of a stream that is no XFORM leaves the generator (R107). -/
theorem afterWord_keeps_generator {w : Word} {s : State} (hx : ∀ b, decode w ≠ .ok (.xform b)) (hz : decode w ≠ .ok .zero)
    (hk : decode w = .ok .ksa → s.KEYLEN = 0#9) : (afterWord w s).generator = s.generator := by
  cases hd : decode w with
  | error d =>
    rw [afterWord_of_issueCommand (issueCommand_error hd s)]
    rfl
  | ok i =>
    obtain ⟨t, ht⟩ := exec_answers_next i s.countCommand
    rw [afterWord_of_issueCommand ((issueCommand_ok hd s).trans ht)]
    have hx : ∀ b, i ≠ .xform b := fun b hi => hx b (hi ▸ hd)
    have hz : i ≠ .zero := fun hi => hz (hi ▸ hd)
    have hk : i = .ksa → s.KEYLEN = 0#9 := fun hi => hk (hi ▸ hd)
    exact exec_keeps_generator (s := s.countCommand) hx hz hk ht

/-- An XFORM word executes its XFORM; the command count is not of the generator (R100). -/
theorem afterWord_xform {w : Word} {b : Byte} {s : State} (hd : decode w = .ok (.xform b)) (hv : s.VALID = true) :
    afterWord w s = (s.afterXform b).countCommand :=
  afterWord_of_issueCommand ((issueCommand_ok hd s).trans (exec_xform (s := s.countCommand) hv b))

/-- An XFORM word adds its byte and its output to those of a stream. -/
theorem stream_cons_xform {w : Word} {b : Byte} (hd : decode w = .ok (.xform b)) (ws : List Word) (s : State) :
    xformBytes (w :: ws) = b :: xformBytes ws ∧
      xformOutputs (w :: ws) s = (afterWord w s).DOUT :: xformOutputs ws (afterWord w s) := by
  simp only [xformBytes, xformOutputs, hd, and_self]

/-- Any other word adds none. -/
theorem stream_cons_other {w : Word} (hx : ∀ b, decode w ≠ .ok (.xform b)) (ws : List Word) (s : State) :
    xformBytes (w :: ws) = xformBytes ws ∧ xformOutputs (w :: ws) s = xformOutputs ws (afterWord w s) := by
  cases hd : decode w with
  | error d => simp only [xformBytes, xformOutputs, hd, and_self]
  | ok i =>
    cases i with
    | xform b => exact absurd hd (hx b)
    | nop | keywr _ _ | keylen _ | ksa | sread _ | cread _ | zero | clrerr =>
      simp only [xformBytes, xformOutputs, hd, and_self]

/-- An uninterrupted stream gives the outputs and leaves the generator of the transform of its XFORM bytes from any state with
the same generator (R107). -/
theorem stream_eq_transform {ws : List Word} {s t : State} (hv : s.VALID = true) (hu : uninterrupted ws s)
    (h : s.generator = t.generator) :
    xformOutputs ws s = (transform (xformBytes ws) t).1 ∧
      (afterWords ws s).generator = (transform (xformBytes ws) t).2.generator := by
  induction ws generalizing s t with
  | nil => exact ⟨rfl, h⟩
  | cons w ws ih =>
    obtain ⟨hz, hk, hu⟩ := hu
    by_cases hx : ∃ b, decode w = .ok (.xform b)
    · obtain ⟨b, hd⟩ := hx
      obtain ⟨hV, hbyte, hnext⟩ := afterXform_congr h b b
      obtain ⟨hbytes, houtputs⟩ := stream_cons_xform hd ws s
      have hw := afterWord_xform hd hv
      rw [hw] at hu houtputs
      obtain ⟨hrest, hend⟩ := ih (s := (s.afterXform b).countCommand) hv hu hnext
      rw [hbytes, houtputs, transform_cons (hV ▸ hv), ← hrest, afterWords, hw]
      exact ⟨congrArg (fun k => (b ^^^ k) :: xformOutputs ws _) hbyte, hend⟩
    · have hx : ∀ b, decode w ≠ .ok (.xform b) := not_exists.mp hx
      have hw := afterWord_keeps_generator hx hz hk
      obtain ⟨-, -, -, hV⟩ := State.generator_eq_iff.mp hw
      obtain ⟨hbytes, houtputs⟩ := stream_cons_other hx ws s
      rw [hbytes, houtputs]
      exact ih (hV.trans hv) hu (hw.trans h)

/-- Settles O55: word by word, the stream and the transform keep equal generators. -/
theorem streamingEquivalence : Obligations.StreamingEquivalence := by
  refine ⟨fun ws s hv hu => ?_, fun bs cs s _ => transform_append bs cs s⟩
  obtain ⟨houtputs, hend⟩ := stream_eq_transform hv hu rfl
  obtain ⟨hS, hI, hJ, -⟩ := State.generator_eq_iff.mp hend
  exact ⟨houtputs, hS, hI, hJ⟩

/-- Settles O56: KSA sets I to 0, and a stream leaves the I of its transform. -/
theorem cursorCountsXforms : Obligations.CursorCountsXforms := by
  refine fun s ws hk => ⟨_, execKsa_accepted hk, fun hu => ?_⟩
  obtain ⟨-, -, hI, -⟩ := streamingEquivalence.1 ws _ rfl hu
  rw [hI, transform_I rfl, BitVec.zero_add, BitVec.toNat_ofNat]

end Sys2Proof.Machine

namespace Sys2Proof.Machine

/-! ### Lifecycle, readback and status: ZERO, NOP, SREAD, CREAD and CLRERR (42_lifecycle_status.md) -/

/-- A word that does not decode is rejected from every state (R144). -/
theorem wordIllegal_of_decode {w : Word} {e : DecodeError} (h : decode w = .error e) : wordIllegal w := issueCommand_error h

/-- A word whose opcode is that of a command without operands selects it where all its other bits are 0, and is illegal
elsewhere (R62, R69). -/
theorem operandFree_encoding {w : Word} {i : Instr} {e : DecodeError}
    (hdec : rsvField w = 0#11 → decode w = if aField w = 0#9 ∧ dField w = 0#8 then .ok i else .error e) :
    (rsvField w = 0#11 ∧ aField w = 0#9 ∧ dField w = 0#8 → wordSelects w i) ∧
    (rsvField w ≠ 0#11 ∨ aField w ≠ 0#9 ∨ dField w ≠ 0#8 → wordIllegal w) := by
  refine ⟨fun ⟨hr, hfields⟩ => wordSelects_of_decode ((hdec hr).trans (if_pos hfields)), fun h => ?_⟩
  by_cases hr : rsvField w = 0#11
  · have hfields : ¬ (aField w = 0#9 ∧ dField w = 0#8) := not_and_or.mpr (h.resolve_left (not_not.mpr hr))
    exact wordIllegal_of_decode ((hdec hr).trans (if_neg hfields))
  · exact wordIllegal_of_decode (decode_reserved hr)

/-- Settles O42: every entry of a RAM without cells reads 0; the decoder's arm for OP 0x7 takes no operand. -/
theorem zeroClearsCipherStateAndKey : Obligations.ZeroClearsCipherStateAndKey :=
  ⟨fun _ => ⟨_, rfl, Memory.read_nil, Memory.read_nil, rfl⟩, fun _ hop => operandFree_encoding (decode_op7 · hop)⟩

/-- Settles O43: NOP answers the state it is given; the decoder's arm for OP 0x0 takes no operand. -/
theorem nopChangesNothing : Obligations.NopChangesNothing :=
  ⟨fun _ => rfl, fun _ hop => operandFree_encoding (decode_op0 · hop)⟩

/-- Settles O46: CLRERR is the one write of 0 to ERR; the decoder's arm for OP 0x8 takes no operand. -/
theorem clrerrClearsErr : Obligations.ClrerrClearsErr :=
  ⟨fun _ => rfl, fun _ hop => operandFree_encoding (decode_op8 · hop)⟩

/-- Settles O44, by the one write of S[idx] to DOUT and the decoder's arm for OP 0x5. -/
theorem sreadCopiesOneEntry : Obligations.SreadCopiesOneEntry := by
  refine ⟨fun idx s => rfl, fun w hop => ?_⟩
  obtain ⟨-, reserved, -, unusedD, index, -, -⟩ := reservedEncodingsAreIllegal w
  refine ⟨fun ⟨hr, ha, hd⟩ => wordSelects_of_decode ?_, fun h => ?_⟩
  · rw [decode_op5 hr hop, if_neg (not_not.mpr hd), if_pos ha, indexOf_aField]
  · exact h.elim reserved (Or.elim · (index (by simp [hop])) (unusedD (by simp [hop])))

/-- A word of OP 0x6 with a cursor's field in A and its other fields 0 decodes to the CREAD of that cursor (R63, R126). -/
theorem decode_cread {w : Word} {sel : CursorSel} (hop : opField w = 0x6#4) (hr : rsvField w = 0#11)
    (ha : aField w = cursorField sel) (hd : dField w = 0#8) : decode w = .ok (.cread sel) := by
  rw [decode_op6 hr hop, if_neg (not_not.mpr hd), ha, if_pos (cursorField_le sel), cursorOf_cursorField]

/-- Settles O45, by the one write of the selected cursor to DOUT and the decoder's arm for OP 0x6 at either select. -/
theorem creadCopiesOneCursor : Obligations.CreadCopiesOneCursor := by
  refine ⟨fun s => rfl, fun s => rfl, fun w hop => ?_⟩
  obtain ⟨-, reserved, -, unusedD, -, -, select⟩ := reservedEncodingsAreIllegal w
  refine ⟨fun ⟨hr, ha, hd⟩ => wordSelects_of_decode (decode_cread hop hr ha hd),
    fun ⟨hr, ha, hd⟩ => wordSelects_of_decode (decode_cread hop hr ha hd), fun h => ?_⟩
  exact h.elim reserved (Or.elim · (select hop) (unusedD (by simp [hop])))

end Sys2Proof.Machine

namespace Sys2Proof.Machine

/-! ### Exceptions: the CMD write of an illegal word (60_exceptions.md) -/

/-- A step whose interaction is a CMD write issues the word, with the interaction consumed (R46, R174). -/
theorem step_commandWrite {w : Word} {s : State} {rest : List HostAction} (hp : s.pending = commandWrite w :: rest) :
    step s = issueCommand w { s with pending := rest } := by
  have hcmd : accessSupported 0x0#4 4 = true := by decide
  rw [step_of_pending hp, commandWrite, perform_write_of_supported hcmd, if_pos rfl]

/-- Settles O9: the step issues the word, and a word that does not decode is rejected (R144). -/
theorem stepRejectsIllegalWord : Obligations.StepRejectsIllegalWord :=
  fun _ _ _ _ hp hd => (step_commandWrite hp).trans (issueCommand_error hd _)

end Sys2Proof.Machine

namespace Sys2Proof.Machine

/-! ### Reset (70_reset_and_hazards.md) -/

/-- A step whose interaction is the reset input puts the block at its reset values (R160). -/
theorem step_reset {s : State} {rest : List HostAction} (hp : s.pending = .reset :: rest) :
    step s = .next { s with pending := rest }.resetBlock := step_of_pending hp

/-- A step whose interaction is the reset input during a command does not execute the command's word (R161). -/
theorem step_resetDuring {w : Word} {s : State} {rest : List HostAction} (hp : s.pending = .resetDuring w :: rest) :
    step s = .next { s with pending := rest }.countCommand.resetBlock := step_of_pending hp

/-- Settles O18: either way the step resets the whole block. -/
theorem resetInputLeavesResetState : Obligations.ResetInputLeavesResetState := by
  rintro s rest (hp | ⟨w, hp⟩)
  · exact ⟨_, step_reset hp, rfl⟩
  · exact ⟨_, step_resetDuring hp, rfl⟩

/-- ZERO puts the block at its reset values, except that it keeps ERR (R120). -/
theorem exec_zero (s : State) : exec .zero s = .next { s.resetBlock with ERR := s.ERR } := rfl

/-- Settles O20: ZERO resets all of the block but ERR, and CLRERR clears ERR. -/
theorem wipeLeavesResetState : Obligations.WipeLeavesResetState := by
  refine fun s => ⟨?_, rfl⟩
  calc execAll wipeCommands s
      = execAll [.clrerr] { s.resetBlock with ERR := s.ERR } :=
        execAll_append_of_next ((execAll_singleton .zero s).trans (exec_zero s)) [.clrerr]
    _ = exec .clrerr { s.resetBlock with ERR := s.ERR } := execAll_singleton .clrerr _
    _ = .next s.resetBlock := clrerrClearsErr.1 _

end Sys2Proof.Machine

namespace Sys2Proof.Machine

/-! ### What every step keeps (R27, R33, R121, R141; log 6) -/

/-- The schedule of any key is in canonical form: the identity is, and every swap keeps it. -/
theorem keySchedule_wf (K : Memory) (L : Nat) : (keySchedule K L).wf = true :=
  keySchedule_keeps (P := fun m => m.wf = true) (fun _ a b h => Memory.swap_wf h a b) Memory.identity_wf K L

/-- A command writes S by a schedule, a swap or a clear, and K by one write or a clear. -/
theorem exec_keeps_canonical {i : Instr} {s t : State} (hs : s.canonical) (h : exec i s = .next t) : t.canonical := by
  obtain ⟨hS, hK⟩ := hs
  exact exec_elim (P := fun _ t => t.canonical)
    (nop := ⟨hS, hK⟩) (keywr := fun _ _ => ⟨hS, Memory.write_wf hK _ _⟩) (keylen := fun _ => ⟨hS, hK⟩)
    (ksaRejected := fun _ => ⟨hS, hK⟩) (ksa := fun _ => ⟨keySchedule_wf _ _, hK⟩)
    (xformRejected := fun _ _ => ⟨hS, hK⟩) (xform := fun _ _ => ⟨Memory.swap_wf hS _ _, hK⟩)
    (sread := fun _ => ⟨hS, hK⟩) (cread := fun _ => ⟨hS, hK⟩)
    (zero := ⟨Memory.zeroed_wf, Memory.zeroed_wf⟩) (clrerr := ⟨hS, hK⟩) h

theorem reset_canonical : State.reset.canonical := ⟨Memory.zeroed_wf, Memory.zeroed_wf⟩

/-- Settles O22: every command keeps the canonical form, and reset and rejection write no cell. -/
theorem stepKeepsMemoryCanonical : Obligations.StepKeepsMemoryCanonical := fun _ _ hs h =>
  step_keeps (P := State.canonical) (host := fun _ _ _ _ hs => hs) (illegal := fun _ hs => hs)
    (command := fun _ _ _ _ _ => exec_keeps_canonical) (reset := reset_canonical) hs h

/-- Settles O23: KSA schedules a permutation, XFORM swaps two entries of one, and VALID is 0 after ZERO and reset. -/
theorem stepKeepsPermutation : Obligations.StepKeepsPermutation := fun _ _ => step_keeps_permutationHeld

/-- Settles O24: while VALID is 0 no command writes a nonzero byte to S, I, J or DOUT. -/
theorem stepKeepsUnscheduledZero : Obligations.StepKeepsUnscheduledZero := fun _ _ => step_keeps_zeroWhenUnscheduled

/-- Settles O25: a decoded KEYLEN is at most 256, and every error code is at most 3. -/
theorem stepKeepsLegalFields : Obligations.StepKeepsLegalFields := fun _ _ => step_keeps_legalFields

/-- Settles O21, invariant by invariant. -/
theorem resetMeetsInvariants : Obligations.ResetMeetsInvariants :=
  ⟨reset_canonical, reset_legalFields, reset_permutationHeld, reset_zeroWhenUnscheduled⟩

end Sys2Proof.Machine

namespace Sys2Proof

/-! ### The encoder, the assembler and the byte lanes (R51, R66, R73) -/

/-- Settles O2, command by command. -/
theorem decodeOfEncode : Obligations.DecodeOfEncode := fun _ => decode_encode

/-- Settles O3: the decoder inverts the encoder on the well-formed commands and nowhere else. -/
theorem encodeOfDecode : Obligations.EncodeOfDecode := fun _ _ => decode_eq_ok_iff.mp

/-- The fields of an assembled word stand side by side (R60). -/
theorem assemble_eq_append (op : BitVec 4) (a : BitVec 9) (d : Byte) : assemble op a d = op ++ 0#11 ++ a ++ d := by
  simpa using (fields_append (assemble op a d)).symm

theorem toNat_append_eq_add {m n : Nat} (x : BitVec m) (y : BitVec n) :
    (x ++ y).toNat = x.toNat * 2 ^ n + y.toNat := by
  rw [BitVec.toNat_append, ← Nat.shiftLeft_add_eq_or_of_lt y.isLt, Nat.shiftLeft_eq]

/-- An assembled word as the sum of its fields (R60, R73). -/
theorem assemble_eq_ofNat (op : BitVec 4) (a : BitVec 9) (d : Byte) :
    assemble op a d = BitVec.ofNat 32 (op.toNat * 0x10000000 + a.toNat * 256 + d.toNat) := by
  have hsum : (assemble op a d).toNat = op.toNat * 0x10000000 + a.toNat * 256 + d.toNat := by
    simp only [assemble_eq_append, toNat_append_eq_add, BitVec.toNat_ofNat]
    omega
  rw [← hsum, BitVec.ofNat_toNat, BitVec.setWidth_eq]

/-- A byte index below 256 as the field A (R63). -/
theorem toNat_indexField_ofNat {n : Nat} (h : n < 256) : (indexField (BitVec.ofNat 8 n)).toNat = n := by
  simp only [indexField, BitVec.toNat_setWidth, BitVec.toNat_ofNat]
  omega

end Sys2Proof

namespace Sys2Proof.Machine

theorem asmOperand_of_lt {bits n : Nat} (h : n < 2 ^ bits) : asmOperand bits n = some (BitVec.ofNat bits n) := if_pos h

theorem asmOperand_of_not_lt {bits n : Nat} (h : ¬ n < 2 ^ bits) : asmOperand bits n = none := if_neg h

theorem assembleLine_cread_of_one_lt {n : Nat} (h : 1 < n) : assembleLine (.cread n) = none := by
  simp only [assembleLine, show n ≠ 0 by omega, show n ≠ 1 by omega, if_false]

theorem assembleLine_keywr (a b : Nat) : assembleLine (.keywr a b) =
    if a < 256 ∧ b < 256 then some [BitVec.ofNat 32 (0x10000000 + a * 256 + b)] else none := by
  by_cases ha : a < 256
  · by_cases hb : b < 256
    · simp [assembleLine, asmOperand_of_lt (bits := 8) ha, asmOperand_of_lt (bits := 8) hb, ha, hb, encode, assemble_eq_ofNat,
        toNat_indexField_ofNat ha, Nat.mod_eq_of_lt hb]
    · simp [assembleLine, asmOperand_of_not_lt (bits := 8) hb, hb]
  · simp [assembleLine, asmOperand_of_not_lt (bits := 8) ha, ha]

theorem assembleLine_keylen (n : Nat) : assembleLine (.keylen n) =
    if n ≤ 256 then some [BitVec.ofNat 32 (0x20000000 + n * 256)] else none := by
  by_cases h : n ≤ 256
  · simp [assembleLine, h, encode, assemble_eq_ofNat, Nat.mod_eq_of_lt (show n < 512 by omega)]
  · simp [assembleLine, h]

theorem assembleLine_xform (b : Nat) : assembleLine (.xform b) =
    if b < 256 then some [BitVec.ofNat 32 (0x40000000 + b)] else none := by
  by_cases h : b < 256
  · simp [assembleLine, asmOperand_of_lt (bits := 8) h, h, encode, assemble_eq_ofNat, Nat.mod_eq_of_lt h]
  · simp [assembleLine, asmOperand_of_not_lt (bits := 8) h, h]

theorem assembleLine_sread (a : Nat) : assembleLine (.sread a) =
    if a < 256 then some [BitVec.ofNat 32 (0x50000000 + a * 256)] else none := by
  by_cases h : a < 256
  · simp [assembleLine, asmOperand_of_lt (bits := 8) h, h, encode, assemble_eq_ofNat, toNat_indexField_ofNat h]
  · simp [assembleLine, asmOperand_of_not_lt (bits := 8) h, h]

theorem assembleLine_word (w : Nat) : assembleLine (.word w) =
    if w < 2 ^ 32 then some [BitVec.ofNat 32 w] else none := by
  by_cases h : w < 2 ^ 32
  · rw [assembleLine, asmOperand_of_lt h, if_pos h, Option.map_some]
  · rw [assembleLine, asmOperand_of_not_lt h, if_neg h, Option.map_none]

/-- Settles O7: a command's word is the sum of its fields, and an operand is assembled exactly in its range. -/
theorem assemblerFollowsSyntaxTable : Obligations.AssemblerFollowsSyntaxTable :=
  ⟨by decide, by decide, by decide, by decide, by decide, by decide, fun _ => assembleLine_cread_of_one_lt,
    assembleLine_keywr, assembleLine_keylen, assembleLine_xform, assembleLine_sread, assembleLine_word⟩

/-- Settles O15: bit `i` of the word is bit `i % 8` of the lane `i / 8`. -/
theorem registerLanesAreLittleEndian : Obligations.RegisterLanesAreLittleEndian := by
  refine fun w => ⟨fun n k hk => by simp [laneByte, hk], BitVec.eq_of_getLsbD_eq fun i hi => ?_⟩
  rcases Nat.lt_or_ge i 8 with h0 | h0
  · simp [wordOfLanes, laneByte, hi, h0, show i < 16 by omega, show i < 24 by omega]
  rcases Nat.lt_or_ge i 16 with h1 | h1
  · simp [wordOfLanes, laneByte, hi, h1, show ¬ i < 8 by omega, show i < 24 by omega, show i - 8 < 8 by omega,
      show 8 + (i - 8) = i by omega]
  rcases Nat.lt_or_ge i 24 with h2 | h2
  · simp [wordOfLanes, laneByte, hi, h2, show ¬ i < 8 by omega, show ¬ i < 16 by omega, show ¬ i - 8 < 8 by omega,
      show i - 16 < 8 by omega, show 16 + (i - 16) = i by omega]
  · simp [wordOfLanes, laneByte, hi, show ¬ i < 8 by omega, show ¬ i < 16 by omega, show ¬ i < 24 by omega,
      show ¬ i - 8 < 8 by omega, show ¬ i - 16 < 8 by omega, show i - 24 < 8 by omega, show 24 + (i - 24) = i by omega]

end Sys2Proof.Machine

namespace Sys2Proof.Machine

/-! ### What a step runs and where it stops (R46, R50, R160; log 1, 2, 3, 4, 12, 17) -/

/-- What `decodeTableWord` reads is what the decoder reads from the bits as a word. -/
theorem decode_of_decodeTableWord {nbits w : Nat} {i : Instr} (h : decodeTableWord nbits w = some i) :
    decode (BitVec.ofNat 32 (w % 2 ^ nbits)) = .ok i := by
  unfold decodeTableWord at h
  split_ifs at h
  split at h
  next j hj => rw [hj, Option.some.inj h]
  next => cases h

/-- Settles O8: both forms of CMD write issue the word, and a word that decodes is executed. -/
theorem stepRunsDecodedCommand : Obligations.StepRunsDecodedCommand :=
  ⟨fun _ _ _ _ hp hd => (step_commandWrite hp).trans (issueCommand_ok hd _),
    fun _ _ _ _ h => (step_commandWrite rfl).trans (issueCommand_ok (decode_of_decodeTableWord h) _)⟩

/-- Settles O16: there is no interaction to perform. -/
theorem idleStepKeepsState : Obligations.IdleStepKeepsState := fun s hp => by
  simp only [step, performNext, hp]

/-- Settles O19: the reset input puts only the block at its reset values. -/
theorem resetInputKeepsHostFields : Obligations.ResetInputKeepsHostFields := fun _ _ =>
  ⟨fun hp => ⟨_, step_reset hp, rfl, rfl, rfl⟩, fun _ hp => ⟨_, step_resetDuring hp, rfl, rfl, rfl⟩⟩

/-- An interaction has a next state unless it is an access that the window does not support (R50). -/
theorem perform_answers_next_or_refuses (a : HostAction) (s : State) :
    (∃ t, perform a s = .next t) ∨
    (perform a s = .refused .unsupportedAccess ∧ ∃ (o : BitVec 4) (size : Nat), ¬ (size = 4 ∧ 4 ∣ o.toNat) ∧
      (a = .read o size ∨ ∃ v, a = .write o size v)) := by
  cases a with
  | read o size =>
    by_cases h : accessSupported o size = true
    · exact .inl ⟨_, perform_read_of_supported h s⟩
    · exact .inr ⟨perform_read_of_unsupported h s, o, size, mt accessSupported_iff.mpr h, .inl rfl⟩
  | write o size v =>
    by_cases h : accessSupported o size = true
    · exact .inl (perform_write_answers_next h v s)
    · exact .inr ⟨perform_write_of_unsupported h v s, o, size, mt accessSupported_iff.mpr h, .inr ⟨v, rfl⟩⟩
  | reset => exact .inl ⟨_, rfl⟩
  | resetDuring w => exact .inl ⟨_, rfl⟩

/-- Settles O27: a step performs one interaction or none. -/
theorem stepStopsOnlyOnUnsupportedAccess : Obligations.StepStopsOnlyOnUnsupportedAccess := by
  intro s
  cases hp : s.pending with
  | nil => exact .inl ⟨s, idleStepKeepsState s hp⟩
  | cons a rest =>
    rw [step_of_pending hp]
    rcases perform_answers_next_or_refuses a { s with pending := rest } with h | ⟨h, o, size, hne, rfl | ⟨v, rfl⟩⟩
    · exact .inl h
    · exact .inr ⟨h, o, size, rest, hne, .inl rfl⟩
    · exact .inr ⟨h, o, size, rest, hne, .inr ⟨v, rfl⟩⟩

/-! ### Which commands write which piece of state (R22) -/

/-- A command that changes the generator is KSA, XFORM or ZERO (R22). -/
theorem exec_generator_of_ne {i : Instr} {s t : State} (h : exec i s = .next t) (hne : t.generator ≠ s.generator) :
    i = .ksa ∨ (∃ b, i = .xform b) ∨ i = .zero := by
  by_contra hi
  simp only [not_or, not_exists] at hi
  obtain ⟨hk, hx, hz⟩ := hi
  exact hne (exec_keeps_generator hx hz (absurd · hk) h)

theorem exec_K_of_ne {i : Instr} {s t : State} (h : exec i s = .next t) (hne : t.K ≠ s.K) :
    (∃ a b, i = .keywr a b) ∨ i = .zero :=
  exec_elim (P := fun i t => t.K ≠ s.K → (∃ a b, i = .keywr a b) ∨ i = .zero)
    (nop := absurd rfl) (keywr := fun a b _ => .inl ⟨a, b, rfl⟩) (keylen := fun _ => absurd rfl)
    (ksaRejected := fun _ => absurd rfl) (ksa := fun _ => absurd rfl)
    (xformRejected := fun _ _ => absurd rfl) (xform := fun _ _ => absurd rfl)
    (sread := fun _ => absurd rfl) (cread := fun _ => absurd rfl)
    (zero := fun _ => .inr rfl) (clrerr := absurd rfl) h hne

theorem exec_KEYLEN_of_ne {i : Instr} {s t : State} (h : exec i s = .next t) (hne : t.KEYLEN ≠ s.KEYLEN) :
    (∃ n, i = .keylen n) ∨ i = .zero :=
  exec_elim (P := fun i t => t.KEYLEN ≠ s.KEYLEN → (∃ n, i = .keylen n) ∨ i = .zero)
    (nop := absurd rfl) (keywr := fun _ _ => absurd rfl) (keylen := fun n _ => .inl ⟨n, rfl⟩)
    (ksaRejected := fun _ => absurd rfl) (ksa := fun _ => absurd rfl)
    (xformRejected := fun _ _ => absurd rfl) (xform := fun _ _ => absurd rfl)
    (sread := fun _ => absurd rfl) (cread := fun _ => absurd rfl)
    (zero := fun _ => .inr rfl) (clrerr := absurd rfl) h hne

/-- A command that changes ERR is a rejected KSA or XFORM, or CLRERR (R30). -/
theorem exec_ERR_of_ne {i : Instr} {s t : State} (h : exec i s = .next t) (hne : t.ERR ≠ s.ERR) :
    (i = .ksa ∧ s.KEYLEN = 0#9) ∨ (∃ b, i = .xform b ∧ s.VALID = false) ∨ i = .clrerr := by
  rw [exec_ERR h] at hne
  cases i with
  | ksa => exact .inl ⟨rfl, by_contra fun hk => hne (if_neg hk)⟩
  | xform b => exact .inr (.inl ⟨b, rfl, by_contra fun hv => hne (if_neg hv)⟩)
  | clrerr => exact .inr (.inr rfl)
  | nop | keywr _ _ | keylen _ | sread _ | cread _ | zero => exact absurd rfl hne

/-- The interactions to come and the values read are the host's own: no command writes them (R22). -/
theorem exec_keeps_host {i : Instr} {s t : State} (h : exec i s = .next t) :
    t.pending = s.pending ∧ t.reads = s.reads :=
  exec_elim (P := fun _ t => t.pending = s.pending ∧ t.reads = s.reads)
    (nop := ⟨rfl, rfl⟩) (keywr := fun _ _ => ⟨rfl, rfl⟩) (keylen := fun _ => ⟨rfl, rfl⟩)
    (ksaRejected := fun _ => ⟨rfl, rfl⟩) (ksa := fun _ => ⟨rfl, rfl⟩)
    (xformRejected := fun _ _ => ⟨rfl, rfl⟩) (xform := fun _ _ => ⟨rfl, rfl⟩)
    (sread := fun _ => ⟨rfl, rfl⟩) (cread := fun _ => ⟨rfl, rfl⟩) (zero := ⟨rfl, rfl⟩) (clrerr := ⟨rfl, rfl⟩) h

/-- Settles O32, register by register; S, I and J are parts of the generator. -/
theorem commandsWriteOnlyTheirRegisters : Obligations.CommandsWriteOnlyTheirRegisters := by
  intro i s t h
  have generator : ¬ (t.S = s.S ∧ t.I = s.I ∧ t.J = s.J) → i = .ksa ∨ (∃ b, i = .xform b) ∨ i = .zero := fun hne =>
    exec_generator_of_ne h fun hg =>
      have ⟨hS, hI, hJ, _⟩ := State.generator_eq_iff.mp hg
      hne ⟨hS, hI, hJ⟩
  obtain ⟨hpending, hreads⟩ := exec_keeps_host h
  refine ⟨fun hS => generator fun ⟨hS', _, _⟩ => hS hS', exec_K_of_ne h, exec_KEYLEN_of_ne h,
    fun hIJ => generator fun ⟨_, hI, hJ⟩ => hIJ.elim (absurd hI) (absurd hJ),
    fun hV => ?_, exec_ERR_of_ne h, fun hD => ?_, exec_cmdIndex h, hpending, hreads⟩
  · exact (exec_VALID_of_ne h hV).imp And.left And.left
  · exact (exec_DOUT_of_ne h hD).imp_left fun ⟨b, hb, _⟩ => ⟨b, hb⟩

/-! ### A read after a command (R55, R166) -/

/-- A CMD write does not touch what is still to come nor what was read, whether its word is accepted or rejected (R21). -/
theorem issueCommand_keeps_host {w : Word} {s t : State} (h : issueCommand w s = .next t) :
    t.pending = s.pending ∧ t.reads = s.reads := by
  cases hd : decode w with
  | error d =>
    rw [issueCommand_error hd] at h
    exact Host.Outcome.next.inj h ▸ ⟨rfl, rfl⟩
  | ok i =>
    rw [issueCommand_ok hd] at h
    exact exec_keeps_host (s := s.countCommand) h

/-- A supported read that follows a CMD write returns the register's value in the state that the command left. -/
theorem read_after_commandWrite {s : State} {w : Word} {o : BitVec 4} {rest : List HostAction} (ho : 4 ∣ o.toNat)
    (hp : s.pending = commandWrite w :: .read o 4 :: rest) :
    ∃ t u, step s = .next t ∧ step t = .next u ∧
      issueCommand w { s with pending := .read o 4 :: rest } = .next t ∧ u.reads = s.reads ++ [registerValue o t] := by
  obtain ⟨t, ht⟩ := issueCommand_answers_next w { s with pending := .read o 4 :: rest }
  obtain ⟨hpending, hreads⟩ := issueCommand_keeps_host ht
  exact ⟨t, _, (step_commandWrite hp).trans ht, step_read ho hpending, ht, congrArg (· ++ [registerValue o t]) hreads⟩

/-- Settles O34, at the offsets of STATUS and DOUT. -/
theorem readsSeeTheCommandBeforeThem : Obligations.ReadsSeeTheCommandBeforeThem := fun _ _ _ =>
  ⟨read_after_commandWrite (o := 0x4#4) (by decide), read_after_commandWrite (o := 0x8#4) (by decide)⟩

/-! ### The key RAM is read by an accepted KSA alone (R26) -/

theorem State.sameButKey_iff {s s' : State} : s.sameButKey s' ↔ ∃ K, s' = { s with K := K } :=
  ⟨fun h => ⟨s'.K, h.symm⟩, fun ⟨_, h⟩ => h ▸ rfl⟩

/-- A command that is no accepted KSA acts alike on two states that differ in K alone. -/
theorem exec_sameButKey {i : Instr} {s s' t : State} (hs : s.sameButKey s') (hk : i = .ksa → s.KEYLEN = 0#9)
    (h : exec i s = .next t) : ∃ t', exec i s' = .next t' ∧ t.sameButKey t' := by
  obtain ⟨K, rfl⟩ := State.sameButKey_iff.mp hs
  exact exec_elim (P := fun i t => (i = .ksa → s.KEYLEN = 0#9) →
      ∃ t', exec i { s with K := K } = .next t' ∧ t.sameButKey t')
    (nop := fun _ => ⟨_, rfl, rfl⟩) (keywr := fun _ _ _ => ⟨_, rfl, rfl⟩) (keylen := fun _ _ => ⟨_, rfl, rfl⟩)
    (ksaRejected := fun h0 _ => ⟨_, execKsa_empty (s := { s with K := K }) h0, rfl⟩) (ksa := fun hne hk => absurd (hk rfl) hne)
    (xformRejected := fun b hv _ => ⟨_, execXform_unscheduled (s := { s with K := K }) hv b, rfl⟩)
    (xform := fun b hv _ => ⟨_, execXform_accepted (s := { s with K := K }) hv b, rfl⟩)
    (sread := fun _ _ => ⟨_, rfl, rfl⟩) (cread := fun c _ => ⟨_, rfl, by cases c <;> rfl⟩)
    (zero := fun _ => ⟨_, rfl, rfl⟩) (clrerr := fun _ => ⟨_, rfl, rfl⟩) h hk

/-- So does a CMD write of any word, accepted or rejected. -/
theorem issueCommand_sameButKey {w : Word} {s s' t : State} (hs : s.sameButKey s')
    (hk : decode w = .ok .ksa → s.KEYLEN = 0#9) (h : issueCommand w s = .next t) :
    ∃ t', issueCommand w s' = .next t' ∧ t.sameButKey t' := by
  obtain ⟨K, rfl⟩ := State.sameButKey_iff.mp hs
  cases hd : decode w with
  | error d =>
    rw [issueCommand_error hd] at h ⊢
    exact ⟨_, rfl, Host.Outcome.next.inj h ▸ rfl⟩
  | ok i =>
    rw [issueCommand_ok hd] at h ⊢
    exact exec_sameButKey (s := s.countCommand) rfl (fun hi => hk (hi ▸ hd)) h

/-- So does any interaction: no register of the window shows K (R26, R45). -/
theorem perform_sameButKey {a : HostAction} {s s' t : State} (hs : s.sameButKey s')
    (hk : ∀ w, a = commandWrite w → decode w = .ok .ksa → s.KEYLEN = 0#9) (h : perform a s = .next t) :
    ∃ t', perform a s' = .next t' ∧ t.sameButKey t' := by
  obtain ⟨K, rfl⟩ := State.sameButKey_iff.mp hs
  cases a with
  | read o size =>
    by_cases ha : accessSupported o size = true
    · rw [perform_read_of_supported ha] at h ⊢
      exact ⟨_, rfl, Host.Outcome.next.inj h ▸ rfl⟩
    · cases (perform_read_of_unsupported ha s).symm.trans h
  | write o size v =>
    by_cases ha : accessSupported o size = true
    · rw [perform_write_of_supported ha] at h ⊢
      split_ifs at h ⊢ with ho
      · have hv : .write o size v = commandWrite v := by rw [ho, (accessSupported_iff.mp ha).1, commandWrite]
        exact issueCommand_sameButKey hs (hk v hv) h
      · exact ⟨_, rfl, Host.Outcome.next.inj h ▸ rfl⟩
    · cases (perform_write_of_unsupported ha v s).symm.trans h
  | reset => exact ⟨_, rfl, Host.Outcome.next.inj h ▸ rfl⟩
  | resetDuring w => exact ⟨_, rfl, Host.Outcome.next.inj h ▸ rfl⟩

/-- Settles O35: the two states have the same interactions to come, and the first acts alike on both. -/
theorem keyIsHiddenUntilKsa : Obligations.KeyIsHiddenUntilKsa := by
  intro s s' t hs h hk
  obtain ⟨K, rfl⟩ := State.sameButKey_iff.mp hs
  rcases step_cases h with ⟨hp, rfl⟩ | ⟨a, rest, hp, ha⟩
  · exact ⟨_, idleStepKeepsState _ hp, rfl⟩
  · rw [step_of_pending (s := { s with K := K }) hp]
    exact perform_sameButKey (s := { s with pending := rest }) rfl (fun w hw => hk w rest (hp.trans (hw ▸ rfl))) ha

/-! ### Commands issued twice (R53) -/

theorem Memory.without_of_forall_ne {m : Memory} {a : Nat} (h : ∀ c ∈ m, c.1 ≠ a) : Memory.without m a = m := by
  induction m with
  | nil => rfl
  | cons c m ih =>
    obtain ⟨hc, hm⟩ := List.forall_mem_cons.mp h
    rw [Memory.without, if_neg hc, ih hm]

/-- Removing the one cell for an address undoes its placing. -/
theorem Memory.without_place {m : Memory} {a : Nat} (v : Byte) (h : ∀ c ∈ m, c.1 ≠ a) :
    Memory.without (Memory.place m a v) a = m := by
  induction m with
  | nil => simp [Memory.place, Memory.without]
  | cons c m ih =>
    obtain ⟨hc, hm⟩ := List.forall_mem_cons.mp h
    unfold Memory.place
    split_ifs
    · rw [Memory.without, if_pos rfl, Memory.without_of_forall_ne h]
    · rw [Memory.without, if_neg hc, ih hm]

/-- A write starts with no cell for its address, whatever was written there before. -/
theorem Memory.without_write (m : Memory) (a v : Byte) :
    Memory.without (m.write a v) a.toNat = Memory.without m a.toNat := by
  unfold Memory.write
  split_ifs
  · exact Memory.without_of_forall_ne (Memory.without_ne m a.toNat)
  · exact Memory.without_place v (Memory.without_ne m a.toNat)

/-- The later of two writes to one address decides, whether or not the memory is canonical (R80). -/
theorem Memory.write_write (m : Memory) (a v w : Byte) : (m.write a v).write a w = m.write a w := by
  rw [Memory.write, Memory.without_write, ← Memory.write]

theorem State.setKeyByte_setKeyByte (s : State) (a v w : Byte) :
    (s.setKeyByte a v).setKeyByte a w = s.setKeyByte a w :=
  congrArg (fun K => { s with K := K }) (Memory.write_write s.K a v w)

/-- Settles O36: what each command but XFORM writes does not depend on what it wrote before. -/
theorem commandsButXformAreIdempotent : Obligations.CommandsButXformAreIdempotent := by
  intro i s t hx h
  exact exec_elim (P := fun i t => (∀ b, i ≠ .xform b) → exec i t = .next t)
    (nop := fun _ => rfl)
    (keywr := fun a b _ => congrArg Host.Outcome.next (s.setKeyByte_setKeyByte a b b))
    (keylen := fun _ _ => rfl)
    (ksaRejected := fun hk _ => execKsa_empty hk) (ksa := fun hk _ => execKsa_accepted hk)
    (xformRejected := fun b _ hx => absurd rfl (hx b)) (xform := fun b _ hx => absurd rfl (hx b))
    (sread := fun _ _ => rfl) (cread := fun c _ => by cases c <;> rfl)
    (zero := fun _ => rfl) (clrerr := fun _ => rfl) h hx

/-! ### Laws of KEYWR and KSA (R81, R89) -/

/-- Writes to different addresses of a canonical memory commute as data. -/
theorem Memory.write_comm {m : Memory} (hm : m.wf = true) {a b : Byte} (hab : a ≠ b) (x y : Byte) :
    (m.write a x).write b y = (m.write b y).write a x := by
  refine Memory.ext_of_read (Memory.write_wf (Memory.write_wf hm _ _) _ _) (Memory.write_wf (Memory.write_wf hm _ _) _ _)
    fun c => ?_
  simp only [Memory.read_write]
  split_ifs with hcb hca
  · exact absurd (hca.symm.trans hcb) hab
  all_goals rfl

/-- Settles O47: the two writes to K commute, and each byte is read back. -/
theorem keywrToDifferentPositionsCommutes : Obligations.KeywrToDifferentPositionsCommutes := by
  refine fun a b x y s hab hm => ⟨(s.setKeyByte a x).setKeyByte b y, rfl, ?_, ?_, ?_⟩
  · exact congrArg (fun K => Host.Outcome.next { s with K := K }) (Memory.write_comm hm hab x y).symm
  · simp [Memory.read_write, hab]
  · simp [Memory.read_write]

/-- Settles O49: the 256 bytes that the iterations add are all that a schedule takes from the key. -/
theorem periodicKeysScheduleTheSameState : Obligations.PeriodicKeysScheduleTheSameState := fun _ _ hk hk' h =>
  ⟨_, _, execKsa_accepted hk, execKsa_accepted hk', keySchedule_congr h, rfl, rfl, rfl⟩

/-! ### The windows of the cores and the platform (R45, R155; log 9, 11) -/

/-- No address is in two windows. -/
theorem windowOffset_eq_none_of_ne {j k addr : Nat} {o : BitVec 4} (hjk : j ≠ k) (h : windowOffset j addr = some o) :
    windowOffset k addr = none := by
  by_contra hne
  obtain ⟨o', h'⟩ := Option.ne_none_iff_exists'.mp hne
  have haddr := windowOffset_eq_some.mp h
  have haddr' := windowOffset_eq_some.mp h'
  have ho := o.isLt
  have ho' := o'.isLt
  rcases Nat.lt_or_gt_of_ne hjk with hlt | hgt
  · have := Config.rc4Base_le hlt
    omega
  · have := Config.rc4Base_le hgt
    omega

theorem windowOffset_base_add (k : Nat) (o : BitVec 4) : windowOffset k (Config.rc4Base k + o.toNat) = some o :=
  windowOffset_eq_some.mpr rfl

theorem memRead_base_add (k : Nat) (o : BitVec 4) (size : Nat) :
    memRead k (Config.rc4Base k + o.toNat) size = some (.read o size) := by
  rw [memRead, windowOffset_base_add, Option.map_some]

theorem memWrite_base_add (k : Nat) (o : BitVec 4) (size : Nat) (v : Word) :
    memWrite k (Config.rc4Base k + o.toNat) size v = some (.write o size v) := by
  rw [memWrite, windowOffset_base_add, Option.map_some]

/-- Settles O14, by the addresses that a window holds and the order of the windows. -/
theorem windowHoldsSixteenAddresses : Obligations.WindowHoldsSixteenAddresses := by
  refine ⟨fun k => ⟨Nat.mul_mod_right 16 _, windowOffset_base_add k, fun addr h => if_neg ?_,
    memWrite_base_add k 0x0#4 4, memRead_base_add k 0x4#4 4, memRead_base_add k 0x8#4 4⟩,
    fun j k addr o => windowOffset_eq_none_of_ne⟩
  omega

/-- The core at an address of a window is the window's own, as no other window holds the address (R155). -/
theorem coreAt_base_add {n : Nat} (k : Fin n) (o : BitVec 4) : coreAt n (Config.rc4Base k + o.toNat) = some k := by
  have hk := windowOffset_base_add k o
  cases hc : coreAt n (Config.rc4Base k + o.toNat) with
  | none => cases (coreAt_eq_none.mp hc k).symm.trans hk
  | some j =>
    obtain ⟨o', hj⟩ := coreAt_windowOffset hc
    by_contra hne
    have hjk : j.val ≠ k.val := fun h => hne (congrArg some (Fin.ext h))
    cases (windowOffset_eq_none_of_ne hjk hj).symm.trans hk

theorem platformPerform_of_route {n : Nat} {a : PlatformAction n} {k : Fin n} {b : HostAction} (h : route a = some (k, b))
    (p : Platform n) : platformPerform a p = p.answer k (perform b p[k]) := by
  rw [platformPerform, h]

theorem platformPerform_of_route_none {n : Nat} {a : PlatformAction n} (h : route a = none) (p : Platform n) :
    platformPerform a p = .next p := by
  rw [platformPerform, h]

/-- Settles O58, by the core that each interaction is routed to and what a core's answer does to the platform. -/
theorem accessesReachTheirOwnCore : Obligations.AccessesReachTheirOwnCore := by
  refine fun n p => ⟨fun k o size v => ⟨platformPerform_of_route ?_ p, platformPerform_of_route ?_ p⟩,
    fun addr size v h => ?_, fun k w => ⟨rfl, rfl⟩, fun k r q => Platform.answer_next⟩
  · simp [route, coreAt_base_add, memRead_base_add]
  · simp [route, coreAt_base_add, memWrite_base_add]
  · have hc := coreAt_eq_none.mpr h
    exact ⟨platformPerform_of_route_none (by simp [route, hc]) p, platformPerform_of_route_none (by simp [route, hc]) p⟩

/-- Settles O37: a core's step is one answer of that core. -/
theorem instancesAreIndependent : Obligations.InstancesAreIndependent := fun _ _ _ _ => Platform.answer_next

end Sys2Proof.Machine
